-- ==== Sys2Proof/Word.lean ====
section
/-! DEFINITION. The two bit-vector types of the block: a stream byte and a command word. -/

namespace Sys2Proof

/-- A byte of the stream, bits 7..0, bit 0 least significant (00_scope.md R8). -/
abbrev Byte := BitVec 8

/-- A command word `cmd_op[1:0]`: 2 bits, fixed length, no operand fields (30_encoding.md R34). -/
abbrev CmdWord := BitVec 2

end Sys2Proof
end

