-- ==== Sys2Proof/Config.lean ====
section
/-! DEFINITION. The build-time parameters of the block: `W` and `OVF_POLICY` (00_scope.md R5, R6).
They are arguments of the model (log entry 1): State carries them, no step writes them. -/

namespace Sys2Proof

/-- `OVF_POLICY` (00_scope.md R6): what `VARINT` does with a value that does not fit. -/
inductive OvfPolicy where
  /-- No guard: high bits are dropped, an over-long run is consumed (40_varint.md R50). -/
  | wrap
  /-- A byte-count and value guard that reports `VARINT_OVERFLOW` (40_varint.md R51). -/
  | guard
deriving DecidableEq, Repr

/-- The parameters fixed when the block is built (10_state.md R16). -/
structure Params where
  /-- `W`, the width of the VarInt result and of `rsp_value` (00_scope.md R5). -/
  width  : Nat
  /-- `OVF_POLICY` (00_scope.md R6). -/
  policy : OvfPolicy
deriving DecidableEq, Repr

/-- The spec's defaults: `W = 32` (00_scope.md R5), `OVF_POLICY = WRAP` (00_scope.md R6). -/
def Params.standard : Params := { width := 32, policy := .wrap }

end Sys2Proof
end

