-- ==== Sys2Proof/Syntax.lean ====
section
/-! DEFINITION. The command set: one constructor per row of spec/opcode_table.json.
The reserved word `11` is no row and no instruction (30_encoding.md R35, R36): the decoder rejects it by
name and the step answers it as R36 says. `PBGROUP` (R46) is a pseudo-instruction: Machine/Assembler.lean. -/

namespace Sys2Proof

/-- The three commands (00_scope.md R2). None has an operand (30_encoding.md R44). -/
inductive Instr where
  /-- `VARINT`, `cmd_op = 00`: decode one VarInt (40_varint.md R47). -/
  | varint
  /-- `PBOOL`, `cmd_op = 01`: decode one packed boolean (41_packed_boolean.md R55). -/
  | pbool
  /-- `PBFIN`, `cmd_op = 10`: end a logical group of booleans (41_packed_boolean.md R58). -/
  | pbfin
deriving DecidableEq, Repr

end Sys2Proof
end

