-- ==== Sys2Proof/WellFormed.lean ====
section
/-! DEFINITION. Well-formedness of instructions and of parameters. -/

namespace Sys2Proof

/-- A command has no operand that could be out of range (30_encoding.md R44), so each one is well formed. -/
def Instr.wf : Instr → Bool
  | .varint => true
  | .pbool  => true
  | .pbfin  => true

/-- `W >= 7` (00_scope.md R5). Claims about a block name this as a premise on its parameters. -/
abbrev Params.wf (p : Params) : Prop := 7 ≤ p.width

end Sys2Proof
end

