-- ==== Sys2Proof/Decode.lean ====
section
/-! DEFINITION. The command decoder, total on every 2-bit word, and the encoder (30_encoding.md R35). -/

namespace Sys2Proof

/-- Why a command word is no instruction. -/
inductive Reject where
  /-- `cmd_op = 11`: reserved (30_encoding.md R35, R36). -/
  | reservedCommand
deriving DecidableEq, Repr

/-- What the decoder answers. -/
inductive Decoded where
  | instr (i : Instr)
  | rejected (r : Reject)
deriving DecidableEq, Repr

/-- The table of 30_encoding.md R35: every 2-bit value is listed. -/
def decode (op : CmdWord) : Decoded :=
  if op = 0b00#2 then .instr .varint
  else if op = 0b01#2 then .instr .pbool
  else if op = 0b10#2 then .instr .pbfin
  else .rejected .reservedCommand

/-- The command word of an instruction, from the same table (30_encoding.md R35). -/
def encode : Instr → CmdWord
  | .varint => 0b00#2
  | .pbool  => 0b01#2
  | .pbfin  => 0b10#2

/-- The command word in a table word: the command port has two wires, so a command is the two low bits
of what is presented (30_encoding.md R34; log entry 13). -/
def cmdWordOf (_nbits w : Nat) : CmdWord := BitVec.ofNat 2 w

/-- The instruction the decoder reads from a word of spec/opcode_table.json. -/
def decodeTableWord (nbits w : Nat) : Option Instr :=
  match decode (cmdWordOf nbits w) with
  | .instr i    => some i
  | .rejected _ => none

end Sys2Proof
end

