-- ==== Sys2Proof/Machine/State.lean ====
section
/-! DEFINITION. The state of the block and of the two agents around it, and the state after reset
(10_state.md; 20_memory.md R29 to R32; 60_exceptions.md R79, R80). -/

namespace Sys2Proof.Machine

/-- The register `fsm` (10_state.md R17, 42_control_fsm.md R62). -/
inductive Fsm where
  /-- 00: waits for a command. -/
  | idle
  /-- 01: a `VARINT` is waiting for its next byte. -/
  | viWait
  /-- 10: a `PBOOL` is waiting for its refill byte. -/
  | pbWait
  /-- 11: a response is pending. -/
  | resp
deriving DecidableEq, Repr

/-- The register `rsp_status_r`: the five codes that are ever driven (30_encoding.md R38; log entry 10). -/
inductive Status where
  | ok
  | streamExhausted
  | ioError
  | varintOverflow
  | illegalCommand
deriving DecidableEq, Repr

/-- One response as the caller takes it: `rsp_status`, `rsp_value`, `rsp_bool` (30_encoding.md R37). -/
structure Response where
  status : Status
  value  : Nat
  bool   : Bool
deriving DecidableEq, Repr

/-- One answer on the byte-source channel: `src_kind` and `src_data` (20_memory.md R29, R30). -/
structure Answer where
  kind : BitVec 2
  data : Byte
deriving DecidableEq, Repr

/-- What the byte source does at one fetch: it answers, or it lets the block wait (`src_valid = 0`) for
some time, in which the outside may act (20_memory.md R31; log entry 4). -/
inductive SrcEvent where
  | answer (a : Answer)
  | withhold
deriving DecidableEq, Repr

/-- What the outside does at one step (60_exceptions.md R80; log entry 5). -/
structure Tick where
  /-- The reset input `rst` (70_reset_and_hazards.md R81). -/
  rst      : Bool
  /-- The caller presents its next command, if it has one (30_encoding.md R34). -/
  cmdValid : Bool
  /-- The caller takes a pending response (30_encoding.md R37). -/
  rspReady : Bool
deriving DecidableEq, Repr

/-- The block's registers, its build-time parameters, and the two agents around it. -/
structure State where
  /-- `W` and `OVF_POLICY`; no step writes them (10_state.md R16; log entry 1). -/
  params    : Params
  /-- `pb_buffer` (10_state.md R11). -/
  pbBuffer  : Byte
  /-- `pb_rem`, 0..8 (10_state.md R12). -/
  pbRem     : Fin 9
  /-- `fsm` (10_state.md R17). -/
  fsm       : Fsm
  /-- `vi_acc`, a `W`-bit value (10_state.md R15, R17; log entry 2). -/
  viAcc     : Nat
  /-- `vi_k`, 0..`MAXB` (10_state.md R15, R17; log entry 2). -/
  viK       : Nat
  /-- `rsp_status_r` (10_state.md R17). -/
  rspStatus : Status
  /-- `rsp_value_r`, a `W`-bit value (10_state.md R17; log entry 2). -/
  rspValue  : Nat
  /-- `rsp_bool_r` (10_state.md R17). -/
  rspBool   : Bool
  /-- `pos`, the byte source's cursor (10_state.md R18). -/
  pos       : Nat
  /-- What the byte source does at the coming fetches; none left means it withholds (log entry 4). -/
  answers   : List SrcEvent
  /-- The command words the caller presents next, in order (30_encoding.md R34; log entry 5). -/
  commands  : List CmdWord
  /-- The responses the caller has taken, oldest first (30_encoding.md R40; log entry 5). -/
  received  : List Response
  /-- What the outside does at the coming steps (60_exceptions.md R80; log entry 5). -/
  ticks     : List Tick
deriving DecidableEq, Repr

/-- There is no fault: the block has no traps, and every error is a response with a non-`OK` status after
which the machine goes on (60_exceptions.md R68, R75). No constructor, so nobody raises one; safe (log
entry 9). -/
inductive Fault where
deriving DecidableEq, Repr

/-- Why the model gives no meaning. -/
inductive Refusal where
  /-- An instruction whose arm of `exec` has no meaning yet; raised by such an arm only, and no arm is
  one. Safe: the model stops where the hardware goes on. -/
  | notModelled (mnemonic : String)
deriving DecidableEq, Repr

/-- The block right after reset (10_state.md R19, 70_reset_and_hazards.md R82), built with the default
parameters, beside a source and a caller that have done nothing yet (log entries 1, 4, 5, 6). -/
def State.reset : State where
  params    := Params.standard
  pbBuffer  := 0x00#8
  pbRem     := 0
  fsm       := .idle
  viAcc     := 0
  viK       := 0
  rspStatus := .ok
  rspValue  := 0
  rspBool   := false
  pos       := 0
  answers   := []
  commands  := []
  received  := []
  ticks     := []

end Sys2Proof.Machine
end

