-- ==== Sys2Proof/Machine/Operands.lean ====
section
/-! DEFINITION. The only operands a command has: bytes taken from the stream (30_encoding.md R44). The
fields of a VarInt byte, the term a group contributes, the bit a packed boolean reads, and the reading of
the source's answers. Shifts are mathematical, over unbounded naturals, and truncation is explicit
(00_scope.md R8). -/

namespace Sys2Proof.Machine

/-- `MAXB = ceil(W / 7)` (00_scope.md R7). -/
def maxb (p : Params) : Nat := (p.width + 6) / 7

/-- `trunc_W(v) = v mod 2^W` (00_scope.md R8). -/
def truncW (p : Params) (v : Nat) : Nat := v % 2 ^ p.width

/-- The group `b[6:0]` (30_encoding.md R41). -/
def group (b : Byte) : BitVec 7 := b.extractLsb' 0 7

/-- The continuation bit `b[7]` (30_encoding.md R41). -/
def continues (b : Byte) : Bool := b.getLsbD 7

/-- `trunc_W(zext(g) << (7 * k))`: what the group of byte `b` at index `k` contributes; 0 when
`7k >= W`, never a shift count taken modulo `W` (40_varint.md R47, R49). -/
def groupTerm (p : Params) (k : Nat) (b : Byte) : Nat := truncW p ((group b).toNat * 2 ^ (7 * k))

/-- `min(vi_k + 1, MAXB)`: the saturating group index (40_varint.md R47). -/
def nextIndex (p : Params) (k : Nat) : Nat := min (k + 1) (maxb p)

/-- `pb_buffer[0]`, 1 = true (41_packed_boolean.md R55). -/
def firstBit (buf : Byte) : Bool := buf.getLsbD 0

/-- `pb_buffer >> 1`, a logical shift, bit 7 becomes 0 (41_packed_boolean.md R55). -/
def dropBit (buf : Byte) : Byte := buf >>> 1

/-- `pb_rem - 1` (41_packed_boolean.md R55); read only when `pb_rem > 0`. -/
def decRem (r : Fin 9) : Fin 9 := ⟨r.val - 1, by omega⟩

/-- The three outcomes of a fetch that is answered (20_memory.md R21). -/
inductive Fetched where
  | byte (d : Byte)
  | eos
  | ioErr
deriving DecidableEq, Repr

/-- The `src_kind` encoding (20_memory.md R30): `00` BYTE, `01` EOS, `10` IOERR, and the reserved `11`
exactly as IOERR. The kind decides before the data is looked at (60_exceptions.md R74). -/
def fetched (a : Answer) : Fetched :=
  if a.kind = 0b00#2 then .byte a.data
  else if a.kind = 0b01#2 then .eos
  else .ioErr

end Sys2Proof.Machine
end

