-- ==== Sys2Proof/Machine/Flags.lean ====
section
/-! DEFINITION. The block has no flags (10_state.md R16); its only result indicators are the response
fields. Here: the overflow condition of `GUARD`, and the register encodings of status, FSM state and
counters. -/

namespace Sys2Proof.Machine

/-- `OVF_POLICY = GUARD` and the byte of index `MAXB - 1` continues or has a group bit at a position
`>= W - 7*(MAXB-1)` (40_varint.md R47, R51): the condition that raises `VARINT_OVERFLOW`. -/
def guardTrips (p : Params) (k : Nat) (b : Byte) : Bool :=
  p.policy = .guard && k = maxb p - 1 &&
    (continues b || (group b).toNat / 2 ^ (p.width - 7 * (maxb p - 1)) ≠ 0)

/-- `rsp_status[2:0]` (30_encoding.md R38). -/
def Status.code : Status → BitVec 3
  | .ok              => 0b000#3
  | .streamExhausted => 0b001#3
  | .ioError         => 0b010#3
  | .varintOverflow  => 0b011#3
  | .illegalCommand  => 0b100#3

/-- The status a 3-bit code names; `101`, `110`, `111` name none (30_encoding.md R38). -/
def Status.ofCode (c : BitVec 3) : Option Status :=
  if c = 0b000#3 then some .ok
  else if c = 0b001#3 then some .streamExhausted
  else if c = 0b010#3 then some .ioError
  else if c = 0b011#3 then some .varintOverflow
  else if c = 0b100#3 then some .illegalCommand
  else none

/-- The encoding of `fsm` (10_state.md R17). -/
def Fsm.code : Fsm → BitVec 2
  | .idle   => 0b00#2
  | .viWait => 0b01#2
  | .pbWait => 0b10#2
  | .resp   => 0b11#2

/-- `pb_rem[3:0]`, the binary encoding of the count (10_state.md R12). -/
def remBits (r : Fin 9) : BitVec 4 := BitVec.ofNat 4 r.val

/-- The width of the register `vi_k`: `ceil(log2(MAXB + 1))` bits (10_state.md R15). The least number of
bits that holds `MAXB`, which is its binary logarithm and one. -/
def viKWidth (p : Params) : Nat := (maxb p).log2 + 1

end Sys2Proof.Machine
end

