-- ==== Sys2Proof/Machine/Ops.lean ====
section
/-! DEFINITION. The shared operations: ending a command with a response or an error, taking the response,
accepting a command, fetching a byte, reset, and the choice of what a step does next. -/

namespace Sys2Proof.Machine

/-- `respond(status, value, bool)` (00_scope.md R9, 30_encoding.md R37): one response is placed on the
response channel and the FSM enters `RESP`. -/
def State.respond (s : State) (st : Status) (v : Nat) (b : Bool) : State :=
  { s with rspStatus := st, rspValue := v, rspBool := b, fsm := .resp }

/-- TAKING AN EXCEPTION. `raise E` ends the current command at once with `respond(E, 0, 0)`
(60_exceptions.md R68); nothing else is recorded and nothing else changes (R73). -/
def State.raise (s : State) (e : Status) : State := s.respond e 0 false

/-- The response on the response registers (30_encoding.md R37). -/
def State.pending (s : State) : Response :=
  { status := s.rspStatus, value := s.rspValue, bool := s.rspBool }

/-- RETURN FROM AN EXCEPTION, and the end of every command: the caller takes the pending response and the
block is in `IDLE`, with nothing to clear (42_control_fsm.md R66, 60_exceptions.md R75). -/
def State.takeResponse (s : State) : State :=
  { s with received := s.received ++ [s.pending], fsm := .idle }

/-- Reset of the block: every register takes its reset value (10_state.md R19, 70_reset_and_hazards.md
R81). The command in the block and a pending response are lost; the source, its cursor, the caller and the
build-time parameters are untouched (R82, R83). -/
def State.resetBlock (s : State) : State :=
  { s with
    pbBuffer := 0x00#8, pbRem := 0, fsm := .idle, viAcc := 0, viK := 0,
    rspStatus := .ok, rspValue := 0, rspBool := false }

/-- A command is accepted in `IDLE` and in no other FSM state (30_encoding.md R34, 42_control_fsm.md R63,
R66); where it is not accepted nothing changes (log entry 14). -/
def accept (s : State) (f : State → State) : State := if s.fsm = .idle then f s else s

/-- What a `FetchByte()` comes to (20_memory.md R21), with the state after it. -/
inductive Fetch where
  /-- A byte was taken. -/
  | byte (d : Byte) (s : State)
  /-- The fetch ended the command with this status; no byte was taken. -/
  | failed (e : Status) (s : State)
  /-- The source has not answered (20_memory.md R31). -/
  | waiting (s : State)
deriving DecidableEq, Repr

/-- `FetchByte()` (20_memory.md R21): the source's next answer decides; a byte advances the cursor by one,
`EOS` and `IOERR` take no byte. A source that withholds its answer leaves the block waiting (R31). -/
def fetchByte (s : State) : Fetch :=
  match s.answers with
  | [] => .waiting s
  | .withhold :: rest => .waiting { s with answers := rest }
  | .answer a :: rest =>
    match fetched a with
    | .byte d => .byte d { s with answers := rest, pos := s.pos + 1 }
    | .eos    => .failed .streamExhausted { s with answers := rest }
    | .ioErr  => .failed .ioError { s with answers := rest }

/-- What the outside does when it has no more choices written down: no reset, the next command presented,
the response taken (log entry 5). -/
def Tick.eager : Tick := { rst := false, cmdValid := true, rspReady := true }

/-- What the outside does at this step. -/
def State.tick (s : State) : Tick := s.ticks.headD Tick.eager

/-- The state in which this step's tick is used up. -/
def State.popTick (s : State) : State := { s with ticks := s.ticks.tail }

/-- What a step does. -/
inductive Event where
  /-- `rst = 1` (70_reset_and_hazards.md R81). -/
  | reset
  /-- A command word is accepted; the caller's other words are `rest` (30_encoding.md R34). -/
  | accept (op : CmdWord) (rest : List CmdWord)
  /-- A `VARINT` waits for its next byte and asks the source again (42_control_fsm.md R64). -/
  | varintPoll
  /-- A `PBOOL` waits for its refill byte and asks the source again (42_control_fsm.md R65). -/
  | pboolPoll
  /-- The pending response is taken (42_control_fsm.md R66). -/
  | deliver
  /-- The caller does nothing: no command presented, or the response not taken (R63, R66). -/
  | hold
deriving DecidableEq, Repr

/-- Reset first (42_control_fsm.md R62); else the FSM state decides (R63 to R66). -/
def State.event (s : State) : Event :=
  if s.tick.rst then .reset
  else match s.fsm with
    | .idle =>
      match s.commands with
      | op :: rest => if s.tick.cmdValid then .accept op rest else .hold
      | [] => .hold
    | .viWait => .varintPoll
    | .pbWait => .pboolPoll
    | .resp => if s.tick.rspReady then .deliver else .hold

end Sys2Proof.Machine
end

