-- ==== Sys2Proof/Machine/PackedBool.lean ====
section
/-! DEFINITION. `PBOOL` and `PBFIN` (41_packed_boolean.md R55 to R61). -/

namespace Sys2Proof.Machine

/-- The bit read of 41_packed_boolean.md R55: the result is bit 0, the buffer shifts right, the count goes
down by one. -/
def pboolRead (s : State) : State :=
  { s with pbBuffer := dropBit s.pbBuffer, pbRem := decRem s.pbRem }.respond .ok 0 (firstBit s.pbBuffer)

/-- The byte loader's refill (41_packed_boolean.md R56): the whole byte, and 8 unread bits. -/
def pboolLoad (d : Byte) (s : State) : State := { s with pbBuffer := d, pbRem := 8 }

/-- The refill branch of 41_packed_boolean.md R55 from the fetch on. A failed refill changes nothing of
the packed-boolean state (R56); a source that withholds leaves the block in `PB_WAIT` (20_memory.md R31). -/
def pboolRefill (s : State) : State :=
  match fetchByte s with
  | .waiting s' => s'
  | .failed e s' => s'.raise e
  | .byte d s' => pboolRead (pboolLoad d s')

/-- `PBOOL` — decode one packed boolean (41_packed_boolean.md R55). -/
def execPbool (s : State) : Host.Outcome State Fault Refusal :=
  .next (accept s fun s =>
    if s.pbRem = 0 then pboolRefill { s with fsm := .pbWait } else pboolRead s)

/-- `PBFIN` — end a logical group of booleans (41_packed_boolean.md R58): `pb_rem <- 0`, `pb_buffer` not
written. -/
def execPbfin (s : State) : Host.Outcome State Fault Refusal :=
  .next (accept s fun s => { s with pbRem := 0 }.respond .ok 0 false)

end Sys2Proof.Machine
end

