-- ==== Sys2Proof/Machine/Varint.lean ====
section
/-! DEFINITION. `VARINT` (40_varint.md R47 to R54). -/

namespace Sys2Proof.Machine

/-- `vi_acc <- 0`, `vi_k <- 0`, and the block waits for the first byte (40_varint.md R47, 42_control_fsm.md
R63). -/
def varintStart (s : State) : State := { s with viAcc := 0, viK := 0, fsm := .viWait }

/-- `vi_acc <- vi_acc | trunc_W(zext(g) << (7 * vi_k))` (40_varint.md R47). -/
def varintMerge (b : Byte) (s : State) : State :=
  { s with viAcc := s.viAcc ||| groupTerm s.params s.viK b }

/-- `vi_k <- min(vi_k + 1, MAXB)` (40_varint.md R47). -/
def varintAdvance (s : State) : State := { s with viK := nextIndex s.params s.viK }

/-- The loop of 40_varint.md R47, run as far as the source's answers reach. The list is the source's
`answers`, one event for each turn of the loop. When the source withholds an answer the command is still
running, in `VI_WAIT`, with no response (20_memory.md R31, 40_varint.md R54): running out of events is
waiting, never a result (log entry 3). -/
def varintLoop : List SrcEvent → State → State
  | [], s => s
  | _ :: rest, s =>
    match fetchByte s with
    | .waiting s' => s'
    | .failed e s' => s'.raise e
    | .byte b s' =>
      if guardTrips s'.params s'.viK b then s'.raise .varintOverflow
      else if continues b then varintLoop rest (varintAdvance (varintMerge b s'))
      else (varintMerge b s').respond .ok (varintMerge b s').viAcc false

/-- A `VARINT` in `VI_WAIT` goes on where it waits (42_control_fsm.md R64). -/
def varintResume (s : State) : State := varintLoop s.answers s

/-- `VARINT` — decode one VarInt (40_varint.md R47). -/
def execVarint (s : State) : Host.Outcome State Fault Refusal :=
  .next (accept s fun s => varintResume (varintStart s))

end Sys2Proof.Machine
end

