-- ==== Sys2Proof/Machine/Dispatch.lean ====
section
/-! DEFINITION. The meaning of each command. -/

namespace Sys2Proof.Machine

/-- One arm per command of 30_encoding.md R35. -/
def exec (i : Instr) (s : State) : Host.Outcome State Fault Refusal :=
  match i with
  | .varint => Sys2Proof.Machine.execVarint s
  | .pbool => Sys2Proof.Machine.execPbool s
  | .pbfin => Sys2Proof.Machine.execPbfin s

end Sys2Proof.Machine
end

