-- ==== Sys2Proof/Machine/Reserved.lean ====
section
/-! DEFINITION. The reserved command word `11` (30_encoding.md R36). -/

namespace Sys2Proof.Machine

/-- The reserved command is accepted like any command, changes no state, takes no byte and responds with
`ILLEGAL_COMMAND` (30_encoding.md R36, 60_exceptions.md R72). -/
def reservedCommand (s : State) : State := accept s fun s => s.raise .illegalCommand

end Sys2Proof.Machine
end

