-- ==== Sys2Proof/Machine/Step.lean ====
section
/-! DEFINITION. One step of the machine: the transaction level of 42_control_fsm.md R67 (log entry 3), and
where the next command is placed. -/

namespace Sys2Proof.Machine

/-- An accepted command word: its instruction's meaning, or the answer to the reserved word. -/
def runCommand (op : CmdWord) (s : State) : Host.Outcome State Fault Refusal :=
  match decode op with
  | .instr i    => exec i s
  | .rejected _ => .next (reservedCommand s)

/-- One step: a reset, an accepted command run as far as the source answers, a waiting command that goes
on, a response taken, or nothing (42_control_fsm.md R62 to R67, 70_reset_and_hazards.md R81). -/
def step (s : State) : Host.Outcome State Fault Refusal :=
  match s.event with
  | .reset          => .next s.popTick.resetBlock
  | .accept op rest => runCommand op { s.popTick with commands := rest }
  | .varintPoll     => .next (varintResume s.popTick)
  | .pboolPoll      => .next (pboolRefill s.popTick)
  | .deliver        => .next s.popTick.takeResponse
  | .hold           => .next s.popTick

/-- A tick at which a command can be accepted. -/
def Tick.presenting (t : Tick) : Tick := { t with rst := false, cmdValid := true }

/-- The caller presents this command word next, before its other words, to a block in `IDLE`, at a step
without reset: all that acceptance takes (30_encoding.md R34; log entry 11). -/
def State.withFetchWord (s : State) (nbits w : Nat) : State :=
  { s with
    commands := cmdWordOf nbits w :: s.commands
    fsm := .idle
    ticks := match s.ticks with
      | [] => []
      | t :: ts => t.presenting :: ts }

end Sys2Proof.Machine
end

