-- ==== Sys2Proof/Machine/Assembler.lean ====
section
/-! DEFINITION. The written form of a command sequence (30_encoding.md R45) and the pseudo-instruction
`PBGROUP m` (R46). Texts are lists of characters. What R45 leaves open is log entry 15. -/

namespace Sys2Proof.Machine

/-- What one line of a program says. -/
inductive AsmLine where
  /-- A mnemonic, `VARINT`, `PBOOL` or `PBFIN`. -/
  | command (i : Instr)
  /-- `.cmd 0b11`: the reserved word, which has no mnemonic. -/
  | reserved
  /-- `PBGROUP m`. -/
  | pbgroup (m : Nat)
deriving DecidableEq, Repr

/-- `PBGROUP m` asks for `m >= 1` (30_encoding.md R46). -/
def AsmLine.wf : AsmLine → Bool
  | .command i => i.wf
  | .reserved  => true
  | .pbgroup m => decide (1 ≤ m)

/-- The command words of a line; `PBGROUP m` is `m` copies of `PBOOL` and one `PBFIN` (30_encoding.md R45,
R46). -/
def AsmLine.words : AsmLine → List CmdWord
  | .command i => [encode i]
  | .reserved  => [0b11#2]
  | .pbgroup m => List.replicate m (encode .pbool) ++ [encode .pbfin]

/-- A program's encoding: the list of its command words in order (30_encoding.md R45). -/
def assemble (lines : List AsmLine) : List CmdWord := lines.flatMap AsmLine.words

/-- The mnemonic of a command (30_encoding.md R45). -/
def mnemonicText : Instr → List Char
  | .varint => ['V', 'A', 'R', 'I', 'N', 'T']
  | .pbool  => ['P', 'B', 'O', 'O', 'L']
  | .pbfin  => ['P', 'B', 'F', 'I', 'N']

/-- The word `PBGROUP`. -/
def groupWord : List Char := ['P', 'B', 'G', 'R', 'O', 'U', 'P']

/-- The word `.cmd`. -/
def cmdDirective : List Char := ['.', 'c', 'm', 'd']

/-- The operand `0b11`. -/
def reservedText : List Char := ['0', 'b', '1', '1']

/-- A decimal digit as a character. -/
def digitChar (d : Nat) : Char := Char.ofNat (48 + d)

/-- The decimal digits of `n` before those of `tail`, for `n` with at most `fuel + 1` digits. -/
def decimalWithin : Nat → Nat → List Char → List Char
  | 0, n, tail => digitChar (n % 10) :: tail
  | fuel + 1, n, tail =>
    if n < 10 then digitChar n :: tail else decimalWithin fuel (n / 10) (digitChar (n % 10) :: tail)

/-- `m` in decimal. -/
def decimal (m : Nat) : List Char := decimalWithin m m []

/-- The value of a decimal digit. -/
def digitValue (c : Char) : Option Nat :=
  if 48 ≤ c.toNat ∧ c.toNat ≤ 57 then some (c.toNat - 48) else none

/-- The digits after those that spelled `acc`. -/
def readDigits (acc : Nat) : List Char → Option Nat
  | [] => some acc
  | c :: cs => (digitValue c).bind fun d => readDigits (acc * 10 + d) cs

/-- A decimal number, at least one digit. -/
def readDecimal : List Char → Option Nat
  | [] => none
  | cs => readDigits 0 cs

/-- A line as it is written (30_encoding.md R45). -/
def AsmLine.text : AsmLine → List Char
  | .command i => mnemonicText i
  | .reserved  => cmdDirective ++ ' ' :: reservedText
  | .pbgroup m => groupWord ++ ' ' :: decimal m

/-- The part of a line before its comment: `;` begins a comment to end of line (30_encoding.md R45). -/
def dropComment (cs : List Char) : List Char := cs.takeWhile fun c => c ≠ ';'

/-- Characters that separate words. -/
def isSpace (c : Char) : Bool := c = ' ' || c = '\t' || c = '\r'

/-- The words of a line, `word` being the one that has begun, its last character first. -/
def splitWords (word : List Char) : List Char → List (List Char)
  | [] => if word = [] then [] else [word.reverse]
  | c :: cs =>
    if isSpace c then
      if word = [] then splitWords [] cs else word.reverse :: splitWords [] cs
    else splitWords (c :: word) cs

/-- What the text of a line comes to. -/
inductive Parsed where
  /-- No word: an empty or comment line. -/
  | blank
  | line (l : AsmLine)
  /-- Not a line of R45 or R46. -/
  | malformed
deriving DecidableEq, Repr

/-- A line by its words (30_encoding.md R45, R46). -/
def parseWords : List (List Char) → Parsed
  | [] => .blank
  | [w] =>
    if w = mnemonicText .varint then .line (.command .varint)
    else if w = mnemonicText .pbool then .line (.command .pbool)
    else if w = mnemonicText .pbfin then .line (.command .pbfin)
    else .malformed
  | [w, x] =>
    if w = cmdDirective ∧ x = reservedText then .line .reserved
    else if w = groupWord then
      match readDecimal x with
      | some m => if 1 ≤ m then .line (.pbgroup m) else .malformed
      | none   => .malformed
    else .malformed
  | _ => .malformed

/-- A line by its text. -/
def parseLine (cs : List Char) : Parsed := parseWords (splitWords [] (dropComment cs))

/-- The command words of a program's lines; none if a line is malformed. -/
def assembleTexts : List (List Char) → Option (List CmdWord)
  | [] => some []
  | t :: ts =>
    match parseLine t with
    | .blank     => assembleTexts ts
    | .line l    => (assembleTexts ts).map (l.words ++ ·)
    | .malformed => none

end Sys2Proof.Machine
end

