-- ==== Sys2Proof/Machine/Ports.lean ====
section
/-! DEFINITION. The output ports, computed from the registers and `rst` (10_state.md R17). -/

namespace Sys2Proof.Machine

/-- The block's output ports (30_encoding.md R34, R37; 20_memory.md R29). -/
structure Ports where
  cmdReady  : Bool
  rspValid  : Bool
  rspStatus : BitVec 3
  rspValue  : Nat
  rspBool   : Bool
  srcReq    : Bool
deriving DecidableEq, Repr

/-- The port equations of 10_state.md R17. While `rspValid` is false the three response ports carry no
meaning; they show their registers. -/
def outputs (rst : Bool) (s : State) : Ports where
  cmdReady  := s.fsm = .idle && !rst
  rspValid  := s.fsm = .resp && !rst
  rspStatus := s.rspStatus.code
  rspValue  := s.rspValue
  rspBool   := s.rspBool
  srcReq    := (s.fsm = .viWait || s.fsm = .pbWait) && !rst

end Sys2Proof.Machine
end

