-- ==== Sys2Proof/Machine/Cycle.lean ====
section
/-! DEFINITION. The cycle level: one rising clock edge of the control FSM, row by row from the tables of
42_control_fsm.md R62 to R66, with reset by 70_reset_and_hazards.md R81. It is the block seen at its pins:
what the caller and the source do comes in as `Pins`, and the queues of State are not read. That it agrees
with the transaction level is R67. -/

namespace Sys2Proof.Machine

/-- The input pins at one clock edge (30_encoding.md R34, R37; 20_memory.md R29; 70_reset_and_hazards.md
R81). -/
structure Pins where
  rst      : Bool
  cmdValid : Bool
  cmdOp    : CmdWord
  srcValid : Bool
  srcKind  : BitVec 2
  srcData  : Byte
  rspReady : Bool
deriving DecidableEq, Repr

/-- The rows of 42_control_fsm.md R63. -/
def edgeIdle (p : Pins) (s : State) : State :=
  if p.cmdValid then
    if p.cmdOp = 0b00#2 then { s with fsm := .viWait, viAcc := 0, viK := 0 }
    else if p.cmdOp = 0b01#2 then
      if s.pbRem = 0 then { s with fsm := .pbWait }
      else { s with
        fsm := .resp, rspBool := firstBit s.pbBuffer, pbBuffer := dropBit s.pbBuffer,
        pbRem := decRem s.pbRem, rspStatus := .ok, rspValue := 0 }
    else if p.cmdOp = 0b10#2 then
      { s with fsm := .resp, pbRem := 0, rspStatus := .ok, rspValue := 0, rspBool := false }
    else
      { s with fsm := .resp, rspStatus := .illegalCommand, rspValue := 0, rspBool := false }
  else s

/-- The rows of 42_control_fsm.md R64. A `BYTE` transfer moves the source's cursor (20_memory.md R29). -/
def edgeViWait (p : Pins) (s : State) : State :=
  if p.srcValid then
    match fetched { kind := p.srcKind, data := p.srcData } with
    | .eos =>
      { s with fsm := .resp, rspStatus := .streamExhausted, rspValue := 0, rspBool := false }
    | .ioErr =>
      { s with fsm := .resp, rspStatus := .ioError, rspValue := 0, rspBool := false }
    | .byte b =>
      if guardTrips s.params s.viK b then
        { s with
          pos := s.pos + 1, fsm := .resp, rspStatus := .varintOverflow, rspValue := 0, rspBool := false }
      else if continues b then
        { s with
          pos := s.pos + 1, viAcc := s.viAcc ||| groupTerm s.params s.viK b,
          viK := nextIndex s.params s.viK }
      else
        { s with
          pos := s.pos + 1, fsm := .resp, rspStatus := .ok,
          rspValue := s.viAcc ||| groupTerm s.params s.viK b, rspBool := false }
  else s

/-- The rows of 42_control_fsm.md R65: on a byte, the refill and the bit read in one edge. -/
def edgePbWait (p : Pins) (s : State) : State :=
  if p.srcValid then
    match fetched { kind := p.srcKind, data := p.srcData } with
    | .eos =>
      { s with fsm := .resp, rspStatus := .streamExhausted, rspValue := 0, rspBool := false }
    | .ioErr =>
      { s with fsm := .resp, rspStatus := .ioError, rspValue := 0, rspBool := false }
    | .byte d =>
      { s with
        pos := s.pos + 1, fsm := .resp, pbBuffer := dropBit d, pbRem := 7, rspBool := firstBit d,
        rspStatus := .ok, rspValue := 0 }
  else s

/-- 42_control_fsm.md R66: the response is taken, or stays. -/
def edgeResp (p : Pins) (s : State) : State := if p.rspReady then s.takeResponse else s

/-- One rising clock edge (42_control_fsm.md R62). -/
def clockEdge (p : Pins) (s : State) : State :=
  if p.rst then s.resetBlock
  else match s.fsm with
    | .idle   => edgeIdle p s
    | .viWait => edgeViWait p s
    | .pbWait => edgePbWait p s
    | .resp   => edgeResp p s

/-- The state after a sequence of clock edges. -/
def cycleRun : List Pins → State → State
  | [], s => s
  | p :: ps, s => cycleRun ps (clockEdge p s)

/-- The state before edge `n` of an endless sequence of clock edges. -/
def cycleAt (pins : Nat → Pins) (s : State) : Nat → State
  | 0     => s
  | n + 1 => clockEdge (pins n) (cycleAt pins s n)

/-- The command accepted at an edge: `cmd_valid = 1` and `cmd_ready = 1` (30_encoding.md R34). -/
def acceptedAt (p : Pins) (s : State) : List CmdWord :=
  if p.cmdValid && (outputs p.rst s).cmdReady then [p.cmdOp] else []

/-- The answer transferred at an edge: `src_req = 1` and `src_valid = 1` (20_memory.md R29). -/
def transferredAt (p : Pins) (s : State) : List SrcEvent :=
  if p.srcValid && (outputs p.rst s).srcReq then [.answer { kind := p.srcKind, data := p.srcData }] else []

/-- The commands accepted in a sequence of clock edges, in order. -/
def accepted : List Pins → State → List CmdWord
  | [], _ => []
  | p :: ps, s => acceptedAt p s ++ accepted ps (clockEdge p s)

/-- The answers transferred in a sequence of clock edges, in order. -/
def transferred : List Pins → State → List SrcEvent
  | [], _ => []
  | p :: ps, s => transferredAt p s ++ transferred ps (clockEdge p s)

end Sys2Proof.Machine
end

