-- ==== Sys2Proof/Machine/Wire.lean ====
section
/-! DEFINITION. The two wire formats: how a VarInt and a group of booleans sit in the byte stream
(30_encoding.md R41 to R43), the source's recursive decoder (40_varint.md R48) and the shortest encoding.
No command calls these: they are the terms in which claims about the commands are stated. -/

namespace Sys2Proof.Machine

/-- The source answers these bytes, one at each fetch (20_memory.md R29, R30). -/
def byteAnswers (bs : List Byte) : List SrcEvent := bs.map fun b => .answer { kind := 0b00#2, data := b }

/-- The bytes of one VarInt: bit 7 set in all of them but the last, where it is clear (30_encoding.md
R41). -/
def isVarInt : List Byte → Bool
  | [] => false
  | [b] => !continues b
  | b :: bs => continues b && isVarInt bs

/-- Every byte has bit 7 set: the bytes of a VarInt that has not ended. -/
def unfinished (bs : List Byte) : Bool := bs.all continues

/-- The value the bytes spell, `V = sum of g_i * 2^(7i)`, unbounded (30_encoding.md R41), by Horner's
scheme: the groups after the first count 2^7 each. -/
def spelled : List Byte → Nat
  | [] => 0
  | b :: bs => (group b).toNat + 2 ^ 7 * spelled bs

/-- The source's recursive definition (40_varint.md R48): `dec(b_0 .. b_n)` is the group of `b_0` if bit 7
is clear, else that group OR the rest's value shifted by 7, truncated. An empty list is no VarInt. -/
def recursiveDecode (p : Params) : List Byte → Nat
  | [] => 0
  | b :: bs =>
    if continues b then truncW p ((group b).toNat ||| (recursiveDecode p bs) * 2 ^ 7)
    else (group b).toNat

/-- The shortest encoding with at most `fuel + 1` bytes. -/
def shortestWithin : Nat → Nat → List Byte
  | 0, v => [BitVec.ofNat 8 (v % 128)]
  | fuel + 1, v =>
    if v < 128 then [BitVec.ofNat 8 v]
    else BitVec.ofNat 8 (v % 128 + 128) :: shortestWithin fuel (v / 128)

/-- The shortest VarInt that spells `v` (30_encoding.md R42): 7 bits a byte, low bits first. The fuel `v`
is more than enough, since each byte divides the value by 128. -/
def shortest (v : Nat) : List Byte := shortestWithin v v

/-- Boolean `j` of a group: bit `j mod 8` of the group's byte `floor(j / 8)` (30_encoding.md R43). -/
def packedBit (bs : List Byte) (j : Nat) : Bool := (bs.getD (j / 8) 0).getLsbD (j % 8)

/-- A group of `m` booleans occupies `ceil(m / 8)` bytes (30_encoding.md R43). -/
def groupBytes (m : Nat) : Nat := (m + 7) / 8

end Sys2Proof.Machine
end

