-- ==== Sys2Proof/Safety.lean ====
section
/-! DEFINITION. The terms in which claims are stated: the invariant of the block between steps, and the
equality of two states as far as any response can tell. -/

namespace Sys2Proof.Machine

/-- The packed-boolean state between steps: the count is at most 7, since 8 is transient (10_state.md R13);
while bits are unread, `pb_buffer[7:pb_rem] = 0` (R14); only an empty buffer waits for a refill (R63). -/
abbrev State.packedInv (s : State) : Prop :=
  s.pbRem.val ≤ 7 ∧ (0 < s.pbRem.val → s.pbBuffer.toNat < 2 ^ s.pbRem.val) ∧
  (s.fsm = .pbWait → s.pbRem = 0)

/-- The working registers: `vi_acc` has `W` bits and `vi_k` at most `MAXB` (10_state.md R15); while a
`VARINT` runs, `vi_acc` holds the groups below index `vi_k` only (40_varint.md R47), and under `GUARD` the
byte of index `MAXB - 1` ends the command (R51). -/
abbrev State.varintInv (s : State) : Prop :=
  s.viAcc < 2 ^ s.params.width ∧ s.viK ≤ maxb s.params ∧
  (s.fsm = .viWait → s.viAcc < 2 ^ (7 * s.viK) ∧ (s.params.policy = .guard → s.viK < maxb s.params))

/-- The response registers: `rsp_value` has `W` bits (10_state.md R17), a pending response has the field
contents of 30_encoding.md R39, and `VARINT_OVERFLOW` is pending only under `GUARD` (60_exceptions.md
R71). -/
abbrev State.responseInv (s : State) : Prop :=
  s.rspValue < 2 ^ s.params.width ∧
  (s.fsm = .resp →
    (s.rspStatus ≠ .ok → s.rspValue = 0 ∧ s.rspBool = false) ∧
    (s.rspBool = true → s.rspValue = 0) ∧
    (s.rspStatus = .varintOverflow → s.params.policy = .guard))

/-- What holds of the block between steps. -/
abbrev State.Inv (s : State) : Prop :=
  s.params.wf ∧ s.packedInv ∧ s.varintInv ∧ s.responseInv

/-- The packed-boolean registers as far as a command can read them: the buffer only while bits are unread
(10_state.md R11, R14). -/
def samePacked (s t : State) : Prop :=
  s.pbRem = t.pbRem ∧ (s.pbRem ≠ 0 → s.pbBuffer = t.pbBuffer)

/-- What the outside sees and decides: parameters, FSM state and both agents. -/
def sameOutside (s t : State) : Prop :=
  s.params = t.params ∧ s.fsm = t.fsm ∧ s.pos = t.pos ∧ s.answers = t.answers ∧
  s.commands = t.commands ∧ s.received = t.received ∧ s.ticks = t.ticks

/-- Two states that differ at most in what no later response depends on: a stale `pb_buffer` (10_state.md
R14), the VarInt working registers outside a running `VARINT` (R15), the response registers outside `RESP`
(R17). -/
def sameSeen (s t : State) : Prop :=
  sameOutside s t ∧ samePacked s t ∧
  (s.fsm = .viWait → s.viAcc = t.viAcc ∧ s.viK = t.viK) ∧
  (s.fsm = .resp → s.pending = t.pending)

/-- 1 while a command is in the block, else 0. -/
def State.inFlight (s : State) : Nat := if s.fsm = .idle then 0 else 1

/-- How many bytes a list of source events delivers. -/
def bytesIn : List SrcEvent → Nat
  | [] => 0
  | .withhold :: es => bytesIn es
  | .answer a :: es => (match fetched a with | .byte _ => 1 | .eos => 0 | .ioErr => 0) + bytesIn es

/-- Every reserved answer kind `11` written as `IOERR` (20_memory.md R30). -/
def reservedAsIoErr : SrcEvent → SrcEvent
  | .withhold => .withhold
  | .answer a => if a.kind = 0b11#2 then .answer { a with kind := 0b10#2 } else .answer a

/-- What a command leaves alone, whatever it does: the parameters, the caller's other words, the responses
taken and the outside's choices. -/
def sameOthers (s t : State) : Prop :=
  t.params = s.params ∧ t.commands = s.commands ∧ t.received = s.received ∧ t.ticks = s.ticks

/-- `t` is `s` after a `VARINT` that took `n` bytes, left the source's further events `rest` and ended with
status `st` and value `v`: a response is pending, and every other field but the working registers `vi_acc`
and `vi_k`, which nothing can observe after the command (10_state.md R15), is as it was. -/
def varintEnded (s t : State) (n : Nat) (rest : List SrcEvent) (st : Status) (v : Nat) : Prop :=
  t = { s with
    answers := rest, pos := s.pos + n, viAcc := t.viAcc, viK := t.viK,
    fsm := .resp, rspStatus := st, rspValue := v, rspBool := false }

/-- `t` is `s` after an accepted `VARINT` that took `n` bytes and waits for its next one, the source's
further events being `rest` (20_memory.md R31). -/
def varintWaiting (s t : State) (n : Nat) (rest : List SrcEvent) : Prop :=
  t = { s with answers := rest, pos := s.pos + n, viAcc := t.viAcc, viK := t.viK, fsm := .viWait }

/-- The source gives no answer now: it withholds, or it has nothing to give (20_memory.md R31). -/
def withheld : List SrcEvent → Bool
  | [] => true
  | .withhold :: _ => true
  | .answer _ :: _ => false

end Sys2Proof.Machine
end

