-- ==== Sys2Proof/Certificates/Slice0/Obligations.lean ====
section
/-! DEFINITION. The statements for the provers. Each docstring names the rules of spec/ it formalises.
`W` is `params.width` and `OVF_POLICY` is `params.policy`: every statement holds for every value of both
that its premises allow. -/

open Sys2Proof Sys2Proof.Machine

/-! ## Encoding -/

/-- 30_encoding.md R35, every 2-bit value. -/
def Obligations.CommandWordsDecode : Prop :=
  decode 0b00#2 = .instr .varint ∧ decode 0b01#2 = .instr .pbool ∧ decode 0b10#2 = .instr .pbfin ∧
  decode 0b11#2 = .rejected .reservedCommand

/-- No bit of a command word is dropped: decoding and encoding are inverse to each other. -/
def Obligations.DecodeEncodeAgree : Prop :=
  (∀ i : Instr, decode (encode i) = .instr i) ∧
  (∀ (op : CmdWord) (i : Instr), decode op = .instr i → encode i = op)

/-- 30_encoding.md R38: the status codes; no other code is ever driven. -/
def Obligations.StatusCodesAgree : Prop :=
  Status.code .ok = 0b000#3 ∧ Status.code .streamExhausted = 0b001#3 ∧ Status.code .ioError = 0b010#3 ∧
  Status.code .varintOverflow = 0b011#3 ∧ Status.code .illegalCommand = 0b100#3 ∧
  (∀ (c : BitVec 3) (st : Status), Status.ofCode c = some st ↔ st.code = c) ∧
  ∀ (rst : Bool) (s : State), (outputs rst s).rspStatus = s.rspStatus.code ∧
    (outputs rst s).rspStatus ≠ 0b101#3 ∧ (outputs rst s).rspStatus ≠ 0b110#3 ∧
    (outputs rst s).rspStatus ≠ 0b111#3

/-- 10_state.md R12, R15, R17: the register encodings. `pb_rem` in 4 bits is its binary value, `fsm` has the
codes of R17, and under the invariant `vi_k` fits in its `ceil(log2(MAXB + 1))` bits, the least number that
holds `MAXB`, and the `W`-bit registers in `W` bits. -/
def Obligations.RegisterEncodings : Prop :=
  (∀ r : Fin 9, (remBits r).toNat = r.val) ∧
  Fsm.code .idle = 0b00#2 ∧ Fsm.code .viWait = 0b01#2 ∧ Fsm.code .pbWait = 0b10#2 ∧
  Fsm.code .resp = 0b11#2 ∧
  (∀ s : State, s.Inv →
    s.viK < 2 ^ viKWidth s.params ∧ 2 ^ (viKWidth s.params - 1) ≤ maxb s.params ∧
    s.viAcc < 2 ^ s.params.width ∧ s.rspValue < 2 ^ s.params.width)

/-- 30_encoding.md R45, R46: a program written line by line, each line well formed, assembles to the
command words of its lines in order, `PBGROUP m` at every `m >= 1` included. The spelling of the mnemonics and
the words of each kind of line are fixed, and what stands after `;` says nothing. How a line may be spaced,
and that a line may hold a comment alone, is the model's choice (log entry 15); here each line is written
with single spaces. -/
def Obligations.ProgramTextAssembles : Prop :=
  (AsmLine.command .varint).text = ['V', 'A', 'R', 'I', 'N', 'T'] ∧
  (AsmLine.command .pbool).text = ['P', 'B', 'O', 'O', 'L'] ∧
  (AsmLine.command .pbfin).text = ['P', 'B', 'F', 'I', 'N'] ∧
  AsmLine.reserved.text = ['.', 'c', 'm', 'd', ' ', '0', 'b', '1', '1'] ∧
  (∀ i : Instr, (AsmLine.command i).words = [encode i]) ∧
  AsmLine.reserved.words = [0b11#2] ∧
  (∀ m : Nat, (AsmLine.pbgroup m).words = List.replicate m (encode .pbool) ++ [encode .pbfin]) ∧
  (∀ lines : List AsmLine, (∀ l ∈ lines, l.wf = true) →
    assembleTexts (lines.map AsmLine.text) = some (lines.map AsmLine.words).flatten ∧
    assemble lines = (lines.map AsmLine.words).flatten) ∧
  (∀ (line comment : List Char) (lines : List (List Char)),
    assembleTexts ((line ++ ';' :: comment) :: lines) = assembleTexts (line :: lines) ∧
    assembleTexts ((';' :: comment) :: lines) = assembleTexts lines)

/-- 30_encoding.md R41, whole: the two fields of a VarInt byte, which byte sequences are VarInts, and the
value they spell. -/
def Obligations.VarintWireFormat : Prop :=
  (∀ b : Byte, (group b).toNat = b.toNat % 128 ∧ (continues b = true ↔ 128 ≤ b.toNat)) ∧
  ∀ bs : List Byte,
    (isVarInt bs = true ↔ ∃ n, bs.length = n + 1 ∧
      (∀ i < n, continues (bs.getD i 0) = true) ∧ continues (bs.getD n 0) = false) ∧
    spelled bs =
      ((List.range bs.length).map fun i => (group (bs.getD i 0)).toNat * 2 ^ (7 * i)).sum

/-- 00_scope.md R7, whole: `MAXB` is the least `n` with `7n >= W`, 5 for `W = 32`; the group at index `k`
carries result bits `7k .. 7k+6`, and none if `k >= MAXB`. -/
def Obligations.GroupsOccupyTheirBits : Prop :=
  (∀ p : Params, p.width ≤ 7 * maxb p ∧ ∀ n, p.width ≤ 7 * n → maxb p ≤ n) ∧
  (∀ p : Params, p.width = 32 → maxb p = 5) ∧
  ∀ (p : Params) (k : Nat) (b : Byte),
    (∀ j, (groupTerm p k b).testBit j =
      (decide (j < p.width) && decide (7 * k ≤ j) && decide (j ≤ 7 * k + 6) && b.getLsbD (j - 7 * k))) ∧
    (maxb p ≤ k → groupTerm p k b = 0)

/-- 30_encoding.md R41, R42: the shortest encoding of `v` is a VarInt that spells `v`, and has
`max(1, ceil(bitlength(v) / 7))` bytes. -/
def Obligations.ShortestEncodingIsVarInt : Prop :=
  ∀ v : Nat, isVarInt (shortest v) = true ∧ spelled (shortest v) = v ∧
    (shortest v).length = max 1 ((v.size + 6) / 7)

/-! ## The step and the command channel -/

/-- A step of an idle block whose caller presents a word that decodes is that instruction's `exec`, on the
state whose word and tick are used up. -/
def Obligations.StepRunsDecodedCommand : Prop :=
  ∀ (s : State) (op : CmdWord) (rest : List CmdWord) (i : Instr),
    s.fsm = .idle → s.tick.rst = false → s.tick.cmdValid = true → s.commands = op :: rest →
    decode op = .instr i →
    step s = exec i { s with commands := rest, ticks := s.ticks.tail }

/-- `withFetchWord` places an instruction so that the very next step runs it, from any state. The model's
choice: how a program comes in (log entry 11), and that a command is the two low bits of a table word (log
entry 13). -/
def Obligations.PlacedWordRunsNext : Prop :=
  ∀ (s : State) (nbits w : Nat) (i : Instr), decodeTableWord nbits w = some i →
    step (s.withFetchWord nbits w) = exec i { s with fsm := .idle, ticks := s.ticks.tail }

/-- 30_encoding.md R36: the reserved command is accepted, changes no state, takes no byte and responds
`ILLEGAL_COMMAND`. -/
def Obligations.ReservedCommandIsIllegal : Prop :=
  ∀ (s : State) (rest : List CmdWord),
    s.fsm = .idle → s.tick.rst = false → s.tick.cmdValid = true → s.commands = 0b11#2 :: rest →
    step s = .next { s with
      commands := rest, ticks := s.ticks.tail, fsm := .resp,
      rspStatus := .illegalCommand, rspValue := 0, rspBool := false }

/-- 30_encoding.md R34, 42_control_fsm.md R66: outside `IDLE` no command is accepted. That `exec` then
leaves the state as it is: log entry 14. -/
def Obligations.BusyBlockAcceptsNothing : Prop :=
  ∀ s : State, s.fsm ≠ .idle →
    (∀ i : Instr, exec i s = .next s) ∧ (∀ t : State, step s = .next t → t.commands = s.commands)

/-- 10_state.md R17, the port equations: which handshake the block offers in which FSM state, none of them
while `rst` is high, and the three response ports driven from their registers. So outside reset it offers
exactly one handshake. -/
def Obligations.OneHandshakeAtATime : Prop :=
  ∀ (rst : Bool) (s : State),
    ((outputs rst s).cmdReady = true ↔ s.fsm = .idle ∧ rst = false) ∧
    ((outputs rst s).rspValid = true ↔ s.fsm = .resp ∧ rst = false) ∧
    ((outputs rst s).srcReq = true ↔ (s.fsm = .viWait ∨ s.fsm = .pbWait) ∧ rst = false) ∧
    (outputs rst s).rspStatus = s.rspStatus.code ∧ (outputs rst s).rspValue = s.rspValue ∧
    (outputs rst s).rspBool = s.rspBool ∧
    (rst = false → (outputs rst s).cmdReady.toNat + (outputs rst s).rspValid.toNat +
      (outputs rst s).srcReq.toNat = 1)

/-- 60_exceptions.md R68, R75 and 10_state.md R16: no step stops the machine, and none writes the
build-time parameters. -/
def Obligations.StepAlwaysGoesOn : Prop :=
  ∀ s : State, ∃ t : State, step s = .next t ∧ t.params = s.params

/-- 30_encoding.md R40: every accepted command produces exactly one response. Outside reset the commands
not yet accepted, the one in the block and the responses taken keep their number together; a reset takes
away the one in the block only (70_reset_and_hazards.md R83); taken responses are only ever added to. -/
def Obligations.OneResponsePerCommand : Prop :=
  ∀ s t : State, step s = .next t →
    (∃ new : List Response, t.received = s.received ++ new) ∧
    (s.tick.rst = false →
      s.commands.length + s.inFlight + s.received.length =
        t.commands.length + t.inFlight + t.received.length) ∧
    (s.tick.rst = true → t.inFlight = 0 ∧ t.commands = s.commands ∧ t.received = s.received)

/-- 20_memory.md R22, R23, R28 and 10_state.md R18: a step takes answers from the front of the stream only,
in order, and the cursor moves by exactly the bytes among them; in a reset step it takes none. -/
def Obligations.BytesTakenInStreamOrder : Prop :=
  ∀ s t : State, step s = .next t →
    ∃ taken : List SrcEvent, s.answers = taken ++ t.answers ∧ t.pos = s.pos + bytesIn taken ∧
      (s.tick.rst = true → taken = [])

/-- 42_control_fsm.md R66: the response is taken, or everything stays; no command is accepted. -/
def Obligations.ResponseTakenOrHeld : Prop :=
  ∀ (s : State) (p : Pins), s.fsm = .resp → p.rst = false → acceptedAt p s = [] ∧
    (p.rspReady = true →
      clockEdge p s = { s with received := s.received ++ [s.pending], fsm := .idle }) ∧
    (p.rspReady = false → clockEdge p s = s)

/-- The same at the transaction level, where a tick says whether the caller takes the response (log entry
5): the return from every command, an erring one included (60_exceptions.md R75). -/
def Obligations.StepDeliversResponse : Prop :=
  ∀ s : State, s.fsm = .resp → s.tick.rst = false →
    (s.tick.rspReady = true →
      step s = .next { s with
        ticks := s.ticks.tail, received := s.received ++ [s.pending], fsm := .idle }) ∧
    (s.tick.rspReady = false → step s = .next { s with ticks := s.ticks.tail })

/-- 42_control_fsm.md R63, R67 at the transaction level: a step of an idle block to which no command is
presented changes nothing but the outside's tick (log entry 5). -/
def Obligations.IdleStepHolds : Prop :=
  ∀ s : State, s.fsm = .idle → s.tick.rst = false → s.commands = [] ∨ s.tick.cmdValid = false →
    step s = .next { s with ticks := s.ticks.tail }

/-! ## `VARINT` -/

/-- 40_varint.md R49, R50: under `WRAP`, a VarInt of any length returns the value its bytes spell,
truncated to `W` bits, and takes exactly its bytes. -/
def Obligations.VarintWrapValue : Prop :=
  ∀ (s : State) (bs : List Byte) (rest : List SrcEvent),
    s.params.wf → s.params.policy = .wrap → s.fsm = .idle →
    isVarInt bs = true → s.answers = byteAnswers bs ++ rest →
    ∃ t, exec .varint s = .next t ∧
      varintEnded s t bs.length rest .ok (spelled bs % 2 ^ s.params.width)

/-- 40_varint.md R51, whole. Under `GUARD`: the byte of index `MAXB - 1` ends the command with
`VARINT_OVERFLOW` if it continues or has a group bit at a position `>= W - 7(MAXB-1)`, and no further byte
is taken; a VarInt of at most `MAXB` bytes that spells `V < 2^W` returns `V`; only such a VarInt returns
`OK`; and no `VARINT` takes more than `MAXB` bytes. -/
def Obligations.VarintGuardRule : Prop :=
  ∀ s : State, s.params.wf → s.params.policy = .guard → s.fsm = .idle →
    (∀ (bs : List Byte) (b : Byte) (rest : List SrcEvent),
      unfinished bs = true → bs.length + 1 = maxb s.params →
      (continues b = true ∨ (group b).toNat / 2 ^ (s.params.width - 7 * (maxb s.params - 1)) ≠ 0) →
      s.answers = byteAnswers (bs ++ [b]) ++ rest →
      ∃ t, exec .varint s = .next t ∧ varintEnded s t (maxb s.params) rest .varintOverflow 0) ∧
    (∀ (bs : List Byte) (rest : List SrcEvent),
      isVarInt bs = true → bs.length ≤ maxb s.params → spelled bs < 2 ^ s.params.width →
      s.answers = byteAnswers bs ++ rest →
      ∃ t, exec .varint s = .next t ∧ varintEnded s t bs.length rest .ok (spelled bs)) ∧
    (∀ t : State, exec .varint s = .next t → t.pos ≤ s.pos + maxb s.params ∧
      (t.fsm = .resp → t.rspStatus = .ok →
        ∃ bs : List Byte, isVarInt bs = true ∧ bs.length ≤ maxb s.params ∧
          spelled bs < 2 ^ s.params.width ∧ s.answers = byteAnswers bs ++ t.answers))

/-- 40_varint.md R48: under `WRAP` the loop takes the same bytes and returns the same value as the source's
recursive definition. -/
def Obligations.VarintAgreesWithRecursion : Prop :=
  ∀ (s : State) (bs : List Byte) (rest : List SrcEvent),
    s.params.wf → s.params.policy = .wrap → s.fsm = .idle →
    isVarInt bs = true → s.answers = byteAnswers bs ++ rest →
    ∃ t, exec .varint s = .next t ∧
      varintEnded s t bs.length rest .ok (recursiveDecode s.params bs)

/-- 40_varint.md R47, corner cases: for every `v < 2^W`, `VARINT` on the shortest encoding of `v` returns
`v` under both policies. -/
def Obligations.VarintRoundTrip : Prop :=
  ∀ (s : State) (v : Nat) (rest : List SrcEvent),
    s.params.wf → s.fsm = .idle → v < 2 ^ s.params.width →
    s.answers = byteAnswers (shortest v) ++ rest →
    ∃ t, exec .varint s = .next t ∧ varintEnded s t (shortest v).length rest .ok v

/-- 40_varint.md R52: the bytes a `VARINT` has taken when it ends. -/
def Obligations.VarintBytesTaken : Prop :=
  ∀ s t : State, s.params.wf → s.fsm = .idle → exec .varint s = .next t → t.fsm = .resp →
    ∃ (bs : List Byte) (rest : List SrcEvent),
      s.answers = byteAnswers bs ++ rest ∧ t.pos = s.pos + bs.length ∧
      (t.rspStatus = .ok → isVarInt bs = true ∧ t.answers = rest) ∧
      (t.rspStatus = .streamExhausted ∨ t.rspStatus = .ioError →
        unfinished bs = true ∧ ∃ a : Answer, rest = .answer a :: t.answers) ∧
      (t.rspStatus = .varintOverflow → bs.length = maxb s.params ∧ t.answers = rest)

/-- 40_varint.md R53: `VARINT` neither reads nor writes `pb_buffer` or `pb_rem`. It also leaves the
parameters, the caller and the coming ticks alone. -/
def Obligations.VarintLeavesPackedState : Prop :=
  ∀ s t : State, exec .varint s = .next t →
    t.pbBuffer = s.pbBuffer ∧ t.pbRem = s.pbRem ∧ sameOthers s t ∧
    ∀ (buf : Byte) (r : Fin 9),
      exec .varint { s with pbBuffer := buf, pbRem := r } = .next { t with pbBuffer := buf, pbRem := r }

/-- 20_memory.md R31 and 40_varint.md R50: a `VARINT` whose source withholds after any number of
continuation bytes (under `GUARD`, fewer than `MAXB`) is waiting in `VI_WAIT`, with no response and nothing
else changed. -/
def Obligations.VarintWaitsWithoutAnswer : Prop :=
  ∀ (s : State) (bs : List Byte) (rest : List SrcEvent),
    s.params.wf → s.fsm = .idle → unfinished bs = true →
    (s.params.policy = .guard → bs.length < maxb s.params) →
    withheld rest = true → s.answers = byteAnswers bs ++ rest →
    ∃ t, exec .varint s = .next t ∧ varintWaiting s t bs.length rest.tail

/-- 42_control_fsm.md R67: cycles spent waiting for the source change nothing. A `VARINT` that met a delay
(a withhold mark, log entry 4) goes on, at a next step without reset, whatever else that step's tick says
(log entry 5), as if the delay had not been there. With no answer left it goes on waiting (20_memory.md
R31). -/
def Obligations.VarintDelayIsTransparent : Prop :=
  (∀ (s t : State) (before after : List SrcEvent),
    s.fsm = .idle → s.tick.rst = false → .withhold ∉ before → s.answers = before ++ .withhold :: after →
    exec .varint s = .next t → t.fsm = .viWait →
    step t = exec .varint { s with answers := before ++ after, ticks := s.ticks.tail }) ∧
  (∀ s : State, s.fsm = .viWait → s.tick.rst = false → s.answers = [] →
    step s = .next { s with ticks := s.ticks.tail })

/-- 40_varint.md R54, at the cycle level, where a run is endless: under `WRAP`, against a source that
answers bytes with bit 7 set forever, whatever its delays, the block stays in `VI_WAIT`, produces no response
and accepts no command; under `GUARD` the same stream, answered at once, ends in `VARINT_OVERFLOW` after
`MAXB` bytes. -/
def Obligations.UnbrokenRunHangs : Prop :=
  ∀ (pins : Nat → Pins) (s : State), s.params.wf → s.fsm = .viWait →
    (∀ n, (pins n).rst = false) →
    (∀ n, (pins n).srcValid = true → (pins n).srcKind = 0b00#2 ∧ continues (pins n).srcData = true) →
    (s.params.policy = .wrap → ∀ n,
      (cycleAt pins s n).fsm = .viWait ∧ (cycleAt pins s n).received = s.received ∧
      (outputs false (cycleAt pins s n)).rspValid = false ∧
      (outputs false (cycleAt pins s n)).cmdReady = false) ∧
    (s.params.policy = .guard → s.viK = 0 → (∀ n, (pins n).srcValid = true) →
      (cycleAt pins s (maxb s.params)).fsm = .resp ∧
      (cycleAt pins s (maxb s.params)).rspStatus = .varintOverflow ∧
      (cycleAt pins s (maxb s.params)).pos = s.pos + maxb s.params)

/-! ## `PBOOL` and `PBFIN` -/

/-- 41_packed_boolean.md R55, whole: the read, the refill, the two failures. Nothing else changes. -/
def Obligations.PboolRule : Prop :=
  ∀ s : State, s.fsm = .idle →
    (s.pbRem ≠ 0 → ∃ r : Fin 9, r.val + 1 = s.pbRem.val ∧
      exec .pbool s = .next { s with
        pbBuffer := s.pbBuffer >>> 1, pbRem := r, fsm := .resp,
        rspStatus := .ok, rspValue := 0, rspBool := s.pbBuffer.getLsbD 0 }) ∧
    (∀ (a : Answer) (rest : List SrcEvent), s.pbRem = 0 → s.answers = .answer a :: rest →
      (a.kind = 0b00#2 → exec .pbool s = .next { s with
        answers := rest, pos := s.pos + 1, pbBuffer := a.data >>> 1, pbRem := 7, fsm := .resp,
        rspStatus := .ok, rspValue := 0, rspBool := a.data.getLsbD 0 }) ∧
      (a.kind = 0b01#2 → exec .pbool s = .next { s with
        answers := rest, fsm := .resp, rspStatus := .streamExhausted, rspValue := 0, rspBool := false }) ∧
      (a.kind = 0b10#2 ∨ a.kind = 0b11#2 → exec .pbool s = .next { s with
        answers := rest, fsm := .resp, rspStatus := .ioError, rspValue := 0, rspBool := false }))

/-- 20_memory.md R31, 42_control_fsm.md R67: a `PBOOL` whose source withholds (a withhold mark, log entry 4)
waits in `PB_WAIT` with nothing else changed, and goes on, at a next step without reset, whatever else that
step's tick says (log entry 5), as if the delay had not been there. With no answer left it goes on
waiting. -/
def Obligations.PboolDelayIsTransparent : Prop :=
  ∀ (s : State) (rest : List SrcEvent), s.fsm = .idle → s.pbRem = 0 →
    (s.answers = [] →
      exec .pbool s = .next { s with fsm := .pbWait } ∧
      (s.tick.rst = false →
        step { s with fsm := .pbWait } = .next { s with fsm := .pbWait, ticks := s.ticks.tail })) ∧
    (s.answers = .withhold :: rest →
      exec .pbool s = .next { s with answers := rest, fsm := .pbWait } ∧
      (s.tick.rst = false →
        step { s with answers := rest, fsm := .pbWait } =
          exec .pbool { s with answers := rest, ticks := s.ticks.tail }))

/-- 41_packed_boolean.md R58: `PBFIN` sets `pb_rem` to 0, responds `OK` and changes nothing else;
`pb_buffer` is not written and no byte is taken. -/
def Obligations.PbfinRule : Prop :=
  ∀ s : State, s.fsm = .idle →
    exec .pbfin s = .next { s with
      pbRem := 0, fsm := .resp, rspStatus := .ok, rspValue := 0, rspBool := false }

/-- 41_packed_boolean.md R59: after any number (at least one) of `PBFIN`, whatever `pb_rem` was, the next
`PBOOL` takes a new byte and returns its bit 0. Stated for the eager outside (`ticks = []`, log entry 5). -/
def Obligations.PbfinForcesRefill : Prop :=
  ∀ (s : State) (n : Nat) (d : Byte) (cs : List CmdWord) (rest : List SrcEvent),
    s.fsm = .idle → s.ticks = [] → 1 ≤ n →
    s.commands = List.replicate n (encode .pbfin) ++ encode .pbool :: cs →
    s.answers = byteAnswers [d] ++ rest →
    ∃ t, Host.Core.run Sys2Proof.core (2 * (n + 1)) s = .next t ∧
      t.received = s.received ++ List.replicate n ⟨.ok, 0, false⟩ ++ [⟨.ok, 0, d.getLsbD 0⟩] ∧
      t.pbBuffer = d >>> 1 ∧ t.pbRem = 7 ∧ t.pos = s.pos + 1 ∧
      t.answers = rest ∧ t.commands = cs ∧ t.fsm = .idle

/-- 41_packed_boolean.md R57, the bit order law, for runs without a reset: after a refill of byte `d`,
while only `PBOOL` and commands that leave the packed-boolean state alone (`VARINT` and the reserved command,
R61) follow, the booleans returned are the bits of `d` from bit 0 up, and after the `(j+1)`-th
`pb_buffer = d >> (j+1)` and `pb_rem = 7 - j`. The outside may delay everything: its ticks are any without
reset (log entry 5), and the source may withhold the refill byte `n` times (log entry 4). -/
def Obligations.PackedBitOrder : Prop :=
  ∀ (s t : State) (d : Byte) (rest : List SrcEvent) (cmds : List CmdWord) (j k n : Nat),
    s.fsm = .idle → (∀ x ∈ s.ticks, x.rst = false) → s.pbRem = 0 →
    s.answers = List.replicate n .withhold ++ (byteAnswers [d] ++ rest) →
    s.commands = encode .pbool :: cmds → (∀ c ∈ cmds, c ≠ encode .pbfin) →
    cmds.count (encode .pbool) = j → j ≤ 7 →
    Host.Core.run Sys2Proof.core k s = .next t → t.fsm = .idle → t.commands = [] →
    t.pbBuffer = d >>> (j + 1) ∧ t.pbRem.val = 7 - j ∧
    ∃ rs : List Response, t.received = s.received ++ rs ∧ rs.length = s.commands.length ∧
      (((s.commands.zip rs).filter fun x => x.1 = encode .pbool).map fun x => x.2.bool) =
        (List.range (j + 1)).map fun i => d.getLsbD i

/-- 30_encoding.md R43, R46: `PBGROUP m` on a fresh byte. It is `m` times `PBOOL` and one `PBFIN`; boolean
`j` is bit `j mod 8` of byte `floor(j / 8)`, whatever the unused high bits of the last byte; a byte is taken
for the first boolean and for every eighth one after it, so `j` booleans take `ceil(j / 8)` bytes; the
`PBFIN` leaves the buffer empty. Stated for the eager outside (`ticks = []`, log entry 5). -/
def Obligations.PackedGroupDecodes : Prop :=
  ∀ (s : State) (m : Nat) (bs : List Byte) (cs : List CmdWord) (rest : List SrcEvent),
    s.fsm = .idle → s.ticks = [] → s.pbRem = 0 → 1 ≤ m → bs.length = groupBytes m →
    s.commands = (AsmLine.pbgroup m).words ++ cs → s.answers = byteAnswers bs ++ rest →
    (AsmLine.pbgroup m).words = List.replicate m (encode .pbool) ++ [encode .pbfin] ∧
    (∀ j ≤ m, ∃ t, Host.Core.run Sys2Proof.core (2 * j) s = .next t ∧
      t.received = s.received ++ ((List.range j).map fun i => ⟨.ok, 0, packedBit bs i⟩) ∧
      t.pos = s.pos + (j + 7) / 8) ∧
    ∃ t, Host.Core.run Sys2Proof.core (2 * (m + 1)) s = .next t ∧
      t.received = s.received ++ ((List.range m).map fun i => ⟨.ok, 0, packedBit bs i⟩) ++
        [⟨.ok, 0, false⟩] ∧
      t.pos = s.pos + bs.length ∧ t.answers = rest ∧ t.commands = cs ∧ t.pbRem = 0 ∧ t.fsm = .idle

/-- 70_reset_and_hazards.md R86: in `PBOOL; VARINT; PBOOL` on the stream `d0 e0` with `e0[7] = 0`, the
VarInt is the one byte `e0` and both booleans come from `d0`. Stated for the eager outside (`ticks = []`, log
entry 5). -/
def Obligations.VarintInsideGroup : Prop :=
  ∀ (s : State) (d e : Byte) (cs : List CmdWord) (rest : List SrcEvent),
    s.params.wf → s.fsm = .idle → s.ticks = [] → s.pbRem = 0 → continues e = false →
    s.commands = [encode .pbool, encode .varint, encode .pbool] ++ cs →
    s.answers = byteAnswers [d, e] ++ rest →
    ∃ t, Host.Core.run Sys2Proof.core 6 s = .next t ∧
      t.received = s.received ++
        [⟨.ok, 0, d.getLsbD 0⟩, ⟨.ok, (group e).toNat, false⟩, ⟨.ok, 0, d.getLsbD 1⟩] ∧
      t.pbBuffer = d >>> 2 ∧ t.pbRem = 6 ∧ t.pos = s.pos + 2 ∧ t.answers = rest ∧ t.commands = cs

/-! ## Errors -/

/-- 60_exceptions.md R69: `EOS` at any fetch of a `VARINT`, the first included, and at the refill of a
`PBOOL`, only when `pb_rem = 0`; never from `PBFIN` or the reserved command. -/
def Obligations.EndOfStreamStatus : Prop :=
  ∀ s : State, s.params.wf → s.fsm = .idle →
    (∀ (bs : List Byte) (x : Byte) (rest : List SrcEvent), unfinished bs = true →
      (s.params.policy = .guard → bs.length < maxb s.params) →
      s.answers = byteAnswers bs ++ .answer ⟨0b01#2, x⟩ :: rest →
      ∃ t, exec .varint s = .next t ∧ varintEnded s t bs.length rest .streamExhausted 0) ∧
    (∀ (x : Byte) (rest : List SrcEvent), s.answers = .answer ⟨0b01#2, x⟩ :: rest → s.pbRem = 0 →
      exec .pbool s = .next { s with
        answers := rest, fsm := .resp, rspStatus := .streamExhausted, rspValue := 0, rspBool := false }) ∧
    (s.pbRem ≠ 0 → ∃ t, exec .pbool s = .next t ∧ t.fsm = .resp ∧ t.rspStatus = .ok) ∧
    (∃ t, exec .pbfin s = .next t ∧ t.fsm = .resp ∧ t.rspStatus = .ok) ∧
    (reservedCommand s).fsm = .resp ∧ (reservedCommand s).rspStatus = .illegalCommand

/-- 60_exceptions.md R70: `IOERR`, and the reserved `src_kind = 11`, at the same fetches. -/
def Obligations.IoErrorStatus : Prop :=
  ∀ (s : State) (kind : BitVec 2) (x : Byte) (rest : List SrcEvent),
    s.params.wf → s.fsm = .idle → kind = 0b10#2 ∨ kind = 0b11#2 →
    (∀ bs : List Byte, unfinished bs = true → (s.params.policy = .guard → bs.length < maxb s.params) →
      s.answers = byteAnswers bs ++ .answer ⟨kind, x⟩ :: rest →
      ∃ t, exec .varint s = .next t ∧ varintEnded s t bs.length rest .ioError 0) ∧
    (s.answers = .answer ⟨kind, x⟩ :: rest → s.pbRem = 0 →
      exec .pbool s = .next { s with
        answers := rest, fsm := .resp, rspStatus := .ioError, rspValue := 0, rspBool := false })

/-- 20_memory.md R30: the four answer kinds, and the reserved one exactly as `IOERR`, in every step of the
machine. -/
def Obligations.ReservedKindActsAsIoErr : Prop :=
  (∀ x : Byte, fetched ⟨0b00#2, x⟩ = .byte x ∧ fetched ⟨0b01#2, x⟩ = .eos ∧
    fetched ⟨0b10#2, x⟩ = .ioErr ∧ fetched ⟨0b11#2, x⟩ = .ioErr) ∧
  (∀ s t : State, step s = .next t →
    step { s with answers := s.answers.map reservedAsIoErr } =
      .next { t with answers := t.answers.map reservedAsIoErr })

/-- 60_exceptions.md R73: what an error leaves. A step that ends a command with a non-`OK` status leaves
`pb_buffer` and `pb_rem` alone, never moves the cursor back, and its response carries no value. -/
def Obligations.ErrorLeavesPackedState : Prop :=
  ∀ s t : State, step s = .next t → s.fsm ≠ .resp → t.fsm = .resp → t.rspStatus ≠ .ok →
    t.pbBuffer = s.pbBuffer ∧ t.pbRem = s.pbRem ∧ s.pos ≤ t.pos ∧
    t.rspValue = 0 ∧ t.rspBool = false ∧ t.received = s.received

/-! ## Reset -/

/-- 10_state.md R19: every register after reset. The cursor is not reset by the block. -/
def Obligations.ResetValues : Prop :=
  State.reset.pbRem = 0 ∧ State.reset.pbBuffer = 0x00#8 ∧ State.reset.viAcc = 0 ∧ State.reset.viK = 0 ∧
  State.reset.fsm = .idle ∧ State.reset.rspStatus.code = 0b000#3 ∧ State.reset.rspValue = 0 ∧
  State.reset.rspBool = false ∧
  ∀ (p : Pins) (s : State), p.rst = true → (clockEdge p s).pos = s.pos

/-- 70_reset_and_hazards.md R81, R83: at an edge with `rst = 1`, in every FSM state, the block loads its
reset values and no transfer occurs on any channel: a command in the block and a pending response are gone
without a response, and the bytes taken stay taken. -/
def Obligations.ResetEdgeLoadsValues : Prop :=
  ∀ (s : State) (p : Pins), p.rst = true →
    clockEdge p s = { s with
      pbBuffer := 0x00#8, pbRem := 0, fsm := .idle, viAcc := 0, viK := 0,
      rspStatus := .ok, rspValue := 0, rspBool := false } ∧
    acceptedAt p s = [] ∧ transferredAt p s = [] ∧
    (outputs p.rst s).cmdReady = false ∧ (outputs p.rst s).srcReq = false ∧
    (outputs p.rst s).rspValid = false

/-- The same at the transaction level, where a tick carries `rst` (log entries 5, 7). -/
def Obligations.ResetStepLoadsValues : Prop :=
  ∀ s : State, s.tick.rst = true →
    step s = .next { s with
      ticks := s.ticks.tail, pbBuffer := 0x00#8, pbRem := 0, fsm := .idle, viAcc := 0, viK := 0,
      rspStatus := .ok, rspValue := 0, rspBool := false }

/-! ## The cycle level, row by row -/

/-- 42_control_fsm.md R63, whole: the edge in `IDLE`. -/
def Obligations.IdleEdgeRows : Prop :=
  ∀ (s : State) (p : Pins), s.fsm = .idle → p.rst = false →
    (p.cmdValid = false → clockEdge p s = s) ∧
    (p.cmdValid = true →
      (p.cmdOp = 0b00#2 → clockEdge p s = { s with fsm := .viWait, viAcc := 0, viK := 0 }) ∧
      (p.cmdOp = 0b01#2 → s.pbRem = 0 → clockEdge p s = { s with fsm := .pbWait }) ∧
      (p.cmdOp = 0b01#2 → s.pbRem ≠ 0 → ∃ r : Fin 9, r.val + 1 = s.pbRem.val ∧
        clockEdge p s = { s with
          fsm := .resp, rspBool := s.pbBuffer.getLsbD 0, pbBuffer := s.pbBuffer >>> 1, pbRem := r,
          rspStatus := .ok, rspValue := 0 }) ∧
      (p.cmdOp = 0b10#2 → clockEdge p s = { s with
        fsm := .resp, pbRem := 0, rspStatus := .ok, rspValue := 0, rspBool := false }) ∧
      (p.cmdOp = 0b11#2 → clockEdge p s = { s with
        fsm := .resp, rspStatus := .illegalCommand, rspValue := 0, rspBool := false }))

/-- 42_control_fsm.md R64, whole: the edge in `VI_WAIT`, with `g = b[6:0]`, `c = b[7]` and `k = vi_k`
written out. A byte moves the cursor by one (20_memory.md R29). -/
def Obligations.VarintEdgeRows : Prop :=
  ∀ (s : State) (p : Pins), s.fsm = .viWait → p.rst = false →
    let g := p.srcData.toNat % 128
    let trips := s.params.policy = .guard ∧ s.viK = maxb s.params - 1 ∧
      (128 ≤ p.srcData.toNat ∨ g / 2 ^ (s.params.width - 7 * (maxb s.params - 1)) ≠ 0)
    let merged := s.viAcc ||| (g * 2 ^ (7 * s.viK)) % 2 ^ s.params.width
    (p.srcValid = false → clockEdge p s = s) ∧
    (p.srcValid = true →
      (p.srcKind = 0b01#2 → clockEdge p s = { s with
        fsm := .resp, rspStatus := .streamExhausted, rspValue := 0, rspBool := false }) ∧
      (p.srcKind = 0b10#2 ∨ p.srcKind = 0b11#2 → clockEdge p s = { s with
        fsm := .resp, rspStatus := .ioError, rspValue := 0, rspBool := false }) ∧
      (p.srcKind = 0b00#2 →
        (trips → clockEdge p s = { s with
          pos := s.pos + 1, fsm := .resp, rspStatus := .varintOverflow, rspValue := 0,
          rspBool := false }) ∧
        (¬ trips → p.srcData.toNat < 128 → clockEdge p s = { s with
          pos := s.pos + 1, fsm := .resp, rspStatus := .ok, rspValue := merged, rspBool := false }) ∧
        (¬ trips → 128 ≤ p.srcData.toNat → clockEdge p s = { s with
          pos := s.pos + 1, viAcc := merged, viK := min (s.viK + 1) (maxb s.params) })))

/-- 42_control_fsm.md R65, whole: the edge in `PB_WAIT`. A byte moves the cursor by one (20_memory.md
R29). -/
def Obligations.RefillEdgeRows : Prop :=
  ∀ (s : State) (p : Pins), s.fsm = .pbWait → p.rst = false →
    (p.srcValid = false → clockEdge p s = s) ∧
    (p.srcValid = true →
      (p.srcKind = 0b01#2 → clockEdge p s = { s with
        fsm := .resp, rspStatus := .streamExhausted, rspValue := 0, rspBool := false }) ∧
      (p.srcKind = 0b10#2 ∨ p.srcKind = 0b11#2 → clockEdge p s = { s with
        fsm := .resp, rspStatus := .ioError, rspValue := 0, rspBool := false }) ∧
      (p.srcKind = 0b00#2 → clockEdge p s = { s with
        pos := s.pos + 1, fsm := .resp, pbBuffer := p.srcData >>> 1, pbRem := 7,
        rspBool := p.srcData.getLsbD 0, rspStatus := .ok, rspValue := 0 }))

/-! ## Invariants, observation, refinement -/

/-- The reset state meets the invariant. -/
def Obligations.ResetMeetsInvariant : Prop := State.reset.Inv

/-- 10_state.md R13, R14, R15; 30_encoding.md R39; 60_exceptions.md R71: every step keeps the invariant. -/
def Obligations.StepKeepsInvariant : Prop :=
  ∀ s t : State, s.Inv → step s = .next t → t.Inv

/-- 42_control_fsm.md R65 and the rules of the invariant: every clock edge keeps it too, so that
`pb_rem = 8` is never held in the register at a clock edge. -/
def Obligations.ClockEdgeKeepsInvariant : Prop :=
  ∀ (p : Pins) (s : State), s.Inv → (clockEdge p s).Inv

/-- 10_state.md R10, R14, R15: what is not architectural state changes no later response. States that
differ only in a stale `pb_buffer`, in the VarInt working registers outside a running `VARINT` and in the
response registers outside `RESP` step alike, and stay so. -/
def Obligations.HiddenStateIsUnobservable : Prop :=
  ∀ s s' t : State, sameSeen s s' → step s = .next t → ∃ t', step s' = .next t' ∧ sameSeen t t'

/-- 42_control_fsm.md R67, the refinement: for every sequence of clock edges without reset that begins and
ends in `IDLE`, whatever the caller and the source do and however they delay, the responses taken, the bytes
taken and the packed-boolean state are those of the transaction level run on the commands accepted and the
answers transferred, with the eager outside (`ticks := []`, log entry 5). -/
def Obligations.CycleLevelRefinesTransactions : Prop :=
  ∀ (ps : List Pins) (s : State),
    s.fsm = .idle → (∀ p ∈ ps, p.rst = false) → (cycleRun ps s).fsm = .idle →
    ∃ (k : Nat) (t : State),
      Host.Core.run Sys2Proof.core k
        { s with commands := accepted ps s, answers := transferred ps s, ticks := [] } = .next t ∧
      t.fsm = .idle ∧ t.commands = [] ∧ t.answers = [] ∧
      t.received = (cycleRun ps s).received ∧ t.pos = (cycleRun ps s).pos ∧
      t.pbBuffer = (cycleRun ps s).pbBuffer ∧ t.pbRem = (cycleRun ps s).pbRem

/-- 42_control_fsm.md R64 and 40_varint.md R49: at the cycle level, under `WRAP`, a `VARINT` whose bytes have
been transferred, with any delays, and whose response is not yet taken, holds the truncated value. -/
def Obligations.CycleLevelVarintValue : Prop :=
  ∀ (ps : List Pins) (s : State) (bs : List Byte),
    s.params.wf → s.params.policy = .wrap → s.fsm = .idle →
    (∀ p ∈ ps, p.rst = false ∧ p.rspReady = false) →
    accepted ps s = [encode .varint] → isVarInt bs = true → transferred ps s = byteAnswers bs →
    (cycleRun ps s).fsm = .resp ∧ (cycleRun ps s).rspStatus = .ok ∧
    (cycleRun ps s).rspValue = spelled bs % 2 ^ s.params.width ∧ (cycleRun ps s).rspBool = false ∧
    (cycleRun ps s).pos = s.pos + bs.length
end

