-- ==== Sys2Proof/Laws/State.lean ====
section
/-! SUPPORT. One lemma per field for each update of State, so that no later proof unfolds an update. -/

namespace Sys2Proof.Machine

/-! ### `respond` (30_encoding.md R37): the response registers and `fsm`. -/

@[simp] theorem State.respond_params (s : State) (st : Status) (v : Nat) (b : Bool) : (s.respond st v b).params = s.params := rfl
@[simp] theorem State.respond_pbBuffer (s : State) (st : Status) (v : Nat) (b : Bool) : (s.respond st v b).pbBuffer = s.pbBuffer := rfl
@[simp] theorem State.respond_pbRem (s : State) (st : Status) (v : Nat) (b : Bool) : (s.respond st v b).pbRem = s.pbRem := rfl
@[simp] theorem State.respond_fsm (s : State) (st : Status) (v : Nat) (b : Bool) : (s.respond st v b).fsm = .resp := rfl
@[simp] theorem State.respond_viAcc (s : State) (st : Status) (v : Nat) (b : Bool) : (s.respond st v b).viAcc = s.viAcc := rfl
@[simp] theorem State.respond_viK (s : State) (st : Status) (v : Nat) (b : Bool) : (s.respond st v b).viK = s.viK := rfl
@[simp] theorem State.respond_rspStatus (s : State) (st : Status) (v : Nat) (b : Bool) : (s.respond st v b).rspStatus = st := rfl
@[simp] theorem State.respond_rspValue (s : State) (st : Status) (v : Nat) (b : Bool) : (s.respond st v b).rspValue = v := rfl
@[simp] theorem State.respond_rspBool (s : State) (st : Status) (v : Nat) (b : Bool) : (s.respond st v b).rspBool = b := rfl
@[simp] theorem State.respond_pos (s : State) (st : Status) (v : Nat) (b : Bool) : (s.respond st v b).pos = s.pos := rfl
@[simp] theorem State.respond_answers (s : State) (st : Status) (v : Nat) (b : Bool) : (s.respond st v b).answers = s.answers := rfl
@[simp] theorem State.respond_commands (s : State) (st : Status) (v : Nat) (b : Bool) : (s.respond st v b).commands = s.commands := rfl
@[simp] theorem State.respond_received (s : State) (st : Status) (v : Nat) (b : Bool) : (s.respond st v b).received = s.received := rfl
@[simp] theorem State.respond_ticks (s : State) (st : Status) (v : Nat) (b : Bool) : (s.respond st v b).ticks = s.ticks := rfl

/-! ### `raise` (60_exceptions.md R68): the response registers and `fsm`. -/

@[simp] theorem State.raise_params (s : State) (e : Status) : (s.raise e).params = s.params := rfl
@[simp] theorem State.raise_pbBuffer (s : State) (e : Status) : (s.raise e).pbBuffer = s.pbBuffer := rfl
@[simp] theorem State.raise_pbRem (s : State) (e : Status) : (s.raise e).pbRem = s.pbRem := rfl
@[simp] theorem State.raise_fsm (s : State) (e : Status) : (s.raise e).fsm = .resp := rfl
@[simp] theorem State.raise_viAcc (s : State) (e : Status) : (s.raise e).viAcc = s.viAcc := rfl
@[simp] theorem State.raise_viK (s : State) (e : Status) : (s.raise e).viK = s.viK := rfl
@[simp] theorem State.raise_rspStatus (s : State) (e : Status) : (s.raise e).rspStatus = e := rfl
@[simp] theorem State.raise_rspValue (s : State) (e : Status) : (s.raise e).rspValue = 0 := rfl
@[simp] theorem State.raise_rspBool (s : State) (e : Status) : (s.raise e).rspBool = false := rfl
@[simp] theorem State.raise_pos (s : State) (e : Status) : (s.raise e).pos = s.pos := rfl
@[simp] theorem State.raise_answers (s : State) (e : Status) : (s.raise e).answers = s.answers := rfl
@[simp] theorem State.raise_commands (s : State) (e : Status) : (s.raise e).commands = s.commands := rfl
@[simp] theorem State.raise_received (s : State) (e : Status) : (s.raise e).received = s.received := rfl
@[simp] theorem State.raise_ticks (s : State) (e : Status) : (s.raise e).ticks = s.ticks := rfl

/-! ### Taking the response (42_control_fsm.md R66). -/

@[simp] theorem State.takeResponse_params (s : State) : s.takeResponse.params = s.params := rfl
@[simp] theorem State.takeResponse_pbBuffer (s : State) : s.takeResponse.pbBuffer = s.pbBuffer := rfl
@[simp] theorem State.takeResponse_pbRem (s : State) : s.takeResponse.pbRem = s.pbRem := rfl
@[simp] theorem State.takeResponse_fsm (s : State) : s.takeResponse.fsm = .idle := rfl
@[simp] theorem State.takeResponse_viAcc (s : State) : s.takeResponse.viAcc = s.viAcc := rfl
@[simp] theorem State.takeResponse_viK (s : State) : s.takeResponse.viK = s.viK := rfl
@[simp] theorem State.takeResponse_rspStatus (s : State) : s.takeResponse.rspStatus = s.rspStatus := rfl
@[simp] theorem State.takeResponse_rspValue (s : State) : s.takeResponse.rspValue = s.rspValue := rfl
@[simp] theorem State.takeResponse_rspBool (s : State) : s.takeResponse.rspBool = s.rspBool := rfl
@[simp] theorem State.takeResponse_pos (s : State) : s.takeResponse.pos = s.pos := rfl
@[simp] theorem State.takeResponse_answers (s : State) : s.takeResponse.answers = s.answers := rfl
@[simp] theorem State.takeResponse_commands (s : State) : s.takeResponse.commands = s.commands := rfl
@[simp] theorem State.takeResponse_received (s : State) : s.takeResponse.received = s.received ++ [s.pending] := rfl
@[simp] theorem State.takeResponse_ticks (s : State) : s.takeResponse.ticks = s.ticks := rfl

/-! ### Reset (70_reset_and_hazards.md R81): the block's registers, and nothing outside the block. -/

@[simp] theorem State.resetBlock_params (s : State) : s.resetBlock.params = s.params := rfl
@[simp] theorem State.resetBlock_pbBuffer (s : State) : s.resetBlock.pbBuffer = 0x00#8 := rfl
@[simp] theorem State.resetBlock_pbRem (s : State) : s.resetBlock.pbRem = 0 := rfl
@[simp] theorem State.resetBlock_fsm (s : State) : s.resetBlock.fsm = .idle := rfl
@[simp] theorem State.resetBlock_viAcc (s : State) : s.resetBlock.viAcc = 0 := rfl
@[simp] theorem State.resetBlock_viK (s : State) : s.resetBlock.viK = 0 := rfl
@[simp] theorem State.resetBlock_rspStatus (s : State) : s.resetBlock.rspStatus = .ok := rfl
@[simp] theorem State.resetBlock_rspValue (s : State) : s.resetBlock.rspValue = 0 := rfl
@[simp] theorem State.resetBlock_rspBool (s : State) : s.resetBlock.rspBool = false := rfl
@[simp] theorem State.resetBlock_pos (s : State) : s.resetBlock.pos = s.pos := rfl
@[simp] theorem State.resetBlock_answers (s : State) : s.resetBlock.answers = s.answers := rfl
@[simp] theorem State.resetBlock_commands (s : State) : s.resetBlock.commands = s.commands := rfl
@[simp] theorem State.resetBlock_received (s : State) : s.resetBlock.received = s.received := rfl
@[simp] theorem State.resetBlock_ticks (s : State) : s.resetBlock.ticks = s.ticks := rfl

/-! ### Using up a tick. -/

@[simp] theorem State.popTick_params (s : State) : s.popTick.params = s.params := rfl
@[simp] theorem State.popTick_pbBuffer (s : State) : s.popTick.pbBuffer = s.pbBuffer := rfl
@[simp] theorem State.popTick_pbRem (s : State) : s.popTick.pbRem = s.pbRem := rfl
@[simp] theorem State.popTick_fsm (s : State) : s.popTick.fsm = s.fsm := rfl
@[simp] theorem State.popTick_viAcc (s : State) : s.popTick.viAcc = s.viAcc := rfl
@[simp] theorem State.popTick_viK (s : State) : s.popTick.viK = s.viK := rfl
@[simp] theorem State.popTick_rspStatus (s : State) : s.popTick.rspStatus = s.rspStatus := rfl
@[simp] theorem State.popTick_rspValue (s : State) : s.popTick.rspValue = s.rspValue := rfl
@[simp] theorem State.popTick_rspBool (s : State) : s.popTick.rspBool = s.rspBool := rfl
@[simp] theorem State.popTick_pos (s : State) : s.popTick.pos = s.pos := rfl
@[simp] theorem State.popTick_answers (s : State) : s.popTick.answers = s.answers := rfl
@[simp] theorem State.popTick_commands (s : State) : s.popTick.commands = s.commands := rfl
@[simp] theorem State.popTick_received (s : State) : s.popTick.received = s.received := rfl
@[simp] theorem State.popTick_ticks (s : State) : s.popTick.ticks = s.ticks.tail := rfl

/-! ### Acceptance of a `VARINT` (42_control_fsm.md R63). -/

@[simp] theorem varintStart_params (s : State) : (varintStart s).params = s.params := rfl
@[simp] theorem varintStart_pbBuffer (s : State) : (varintStart s).pbBuffer = s.pbBuffer := rfl
@[simp] theorem varintStart_pbRem (s : State) : (varintStart s).pbRem = s.pbRem := rfl
@[simp] theorem varintStart_fsm (s : State) : (varintStart s).fsm = .viWait := rfl
@[simp] theorem varintStart_viAcc (s : State) : (varintStart s).viAcc = 0 := rfl
@[simp] theorem varintStart_viK (s : State) : (varintStart s).viK = 0 := rfl
@[simp] theorem varintStart_rspStatus (s : State) : (varintStart s).rspStatus = s.rspStatus := rfl
@[simp] theorem varintStart_rspValue (s : State) : (varintStart s).rspValue = s.rspValue := rfl
@[simp] theorem varintStart_rspBool (s : State) : (varintStart s).rspBool = s.rspBool := rfl
@[simp] theorem varintStart_pos (s : State) : (varintStart s).pos = s.pos := rfl
@[simp] theorem varintStart_answers (s : State) : (varintStart s).answers = s.answers := rfl
@[simp] theorem varintStart_commands (s : State) : (varintStart s).commands = s.commands := rfl
@[simp] theorem varintStart_received (s : State) : (varintStart s).received = s.received := rfl
@[simp] theorem varintStart_ticks (s : State) : (varintStart s).ticks = s.ticks := rfl

/-! ### Merging a group (40_varint.md R47). -/

@[simp] theorem varintMerge_params (b : Byte) (s : State) : (varintMerge b s).params = s.params := rfl
@[simp] theorem varintMerge_pbBuffer (b : Byte) (s : State) : (varintMerge b s).pbBuffer = s.pbBuffer := rfl
@[simp] theorem varintMerge_pbRem (b : Byte) (s : State) : (varintMerge b s).pbRem = s.pbRem := rfl
@[simp] theorem varintMerge_fsm (b : Byte) (s : State) : (varintMerge b s).fsm = s.fsm := rfl
@[simp] theorem varintMerge_viAcc (b : Byte) (s : State) : (varintMerge b s).viAcc = s.viAcc ||| groupTerm s.params s.viK b := rfl
@[simp] theorem varintMerge_viK (b : Byte) (s : State) : (varintMerge b s).viK = s.viK := rfl
@[simp] theorem varintMerge_rspStatus (b : Byte) (s : State) : (varintMerge b s).rspStatus = s.rspStatus := rfl
@[simp] theorem varintMerge_rspValue (b : Byte) (s : State) : (varintMerge b s).rspValue = s.rspValue := rfl
@[simp] theorem varintMerge_rspBool (b : Byte) (s : State) : (varintMerge b s).rspBool = s.rspBool := rfl
@[simp] theorem varintMerge_pos (b : Byte) (s : State) : (varintMerge b s).pos = s.pos := rfl
@[simp] theorem varintMerge_answers (b : Byte) (s : State) : (varintMerge b s).answers = s.answers := rfl
@[simp] theorem varintMerge_commands (b : Byte) (s : State) : (varintMerge b s).commands = s.commands := rfl
@[simp] theorem varintMerge_received (b : Byte) (s : State) : (varintMerge b s).received = s.received := rfl
@[simp] theorem varintMerge_ticks (b : Byte) (s : State) : (varintMerge b s).ticks = s.ticks := rfl

/-! ### The next group index (40_varint.md R47). -/

@[simp] theorem varintAdvance_params (s : State) : (varintAdvance s).params = s.params := rfl
@[simp] theorem varintAdvance_pbBuffer (s : State) : (varintAdvance s).pbBuffer = s.pbBuffer := rfl
@[simp] theorem varintAdvance_pbRem (s : State) : (varintAdvance s).pbRem = s.pbRem := rfl
@[simp] theorem varintAdvance_fsm (s : State) : (varintAdvance s).fsm = s.fsm := rfl
@[simp] theorem varintAdvance_viAcc (s : State) : (varintAdvance s).viAcc = s.viAcc := rfl
@[simp] theorem varintAdvance_viK (s : State) : (varintAdvance s).viK = nextIndex s.params s.viK := rfl
@[simp] theorem varintAdvance_rspStatus (s : State) : (varintAdvance s).rspStatus = s.rspStatus := rfl
@[simp] theorem varintAdvance_rspValue (s : State) : (varintAdvance s).rspValue = s.rspValue := rfl
@[simp] theorem varintAdvance_rspBool (s : State) : (varintAdvance s).rspBool = s.rspBool := rfl
@[simp] theorem varintAdvance_pos (s : State) : (varintAdvance s).pos = s.pos := rfl
@[simp] theorem varintAdvance_answers (s : State) : (varintAdvance s).answers = s.answers := rfl
@[simp] theorem varintAdvance_commands (s : State) : (varintAdvance s).commands = s.commands := rfl
@[simp] theorem varintAdvance_received (s : State) : (varintAdvance s).received = s.received := rfl
@[simp] theorem varintAdvance_ticks (s : State) : (varintAdvance s).ticks = s.ticks := rfl

/-! ### The refill (41_packed_boolean.md R56). -/

@[simp] theorem pboolLoad_params (d : Byte) (s : State) : (pboolLoad d s).params = s.params := rfl
@[simp] theorem pboolLoad_pbBuffer (d : Byte) (s : State) : (pboolLoad d s).pbBuffer = d := rfl
@[simp] theorem pboolLoad_pbRem (d : Byte) (s : State) : (pboolLoad d s).pbRem = 8 := rfl
@[simp] theorem pboolLoad_fsm (d : Byte) (s : State) : (pboolLoad d s).fsm = s.fsm := rfl
@[simp] theorem pboolLoad_viAcc (d : Byte) (s : State) : (pboolLoad d s).viAcc = s.viAcc := rfl
@[simp] theorem pboolLoad_viK (d : Byte) (s : State) : (pboolLoad d s).viK = s.viK := rfl
@[simp] theorem pboolLoad_rspStatus (d : Byte) (s : State) : (pboolLoad d s).rspStatus = s.rspStatus := rfl
@[simp] theorem pboolLoad_rspValue (d : Byte) (s : State) : (pboolLoad d s).rspValue = s.rspValue := rfl
@[simp] theorem pboolLoad_rspBool (d : Byte) (s : State) : (pboolLoad d s).rspBool = s.rspBool := rfl
@[simp] theorem pboolLoad_pos (d : Byte) (s : State) : (pboolLoad d s).pos = s.pos := rfl
@[simp] theorem pboolLoad_answers (d : Byte) (s : State) : (pboolLoad d s).answers = s.answers := rfl
@[simp] theorem pboolLoad_commands (d : Byte) (s : State) : (pboolLoad d s).commands = s.commands := rfl
@[simp] theorem pboolLoad_received (d : Byte) (s : State) : (pboolLoad d s).received = s.received := rfl
@[simp] theorem pboolLoad_ticks (d : Byte) (s : State) : (pboolLoad d s).ticks = s.ticks := rfl

/-! ### The bit read (41_packed_boolean.md R55). -/

@[simp] theorem pboolRead_params (s : State) : (pboolRead s).params = s.params := rfl
@[simp] theorem pboolRead_pbBuffer (s : State) : (pboolRead s).pbBuffer = dropBit s.pbBuffer := rfl
@[simp] theorem pboolRead_pbRem (s : State) : (pboolRead s).pbRem = decRem s.pbRem := rfl
@[simp] theorem pboolRead_fsm (s : State) : (pboolRead s).fsm = .resp := rfl
@[simp] theorem pboolRead_viAcc (s : State) : (pboolRead s).viAcc = s.viAcc := rfl
@[simp] theorem pboolRead_viK (s : State) : (pboolRead s).viK = s.viK := rfl
@[simp] theorem pboolRead_rspStatus (s : State) : (pboolRead s).rspStatus = .ok := rfl
@[simp] theorem pboolRead_rspValue (s : State) : (pboolRead s).rspValue = 0 := rfl
@[simp] theorem pboolRead_rspBool (s : State) : (pboolRead s).rspBool = firstBit s.pbBuffer := rfl
@[simp] theorem pboolRead_pos (s : State) : (pboolRead s).pos = s.pos := rfl
@[simp] theorem pboolRead_answers (s : State) : (pboolRead s).answers = s.answers := rfl
@[simp] theorem pboolRead_commands (s : State) : (pboolRead s).commands = s.commands := rfl
@[simp] theorem pboolRead_received (s : State) : (pboolRead s).received = s.received := rfl
@[simp] theorem pboolRead_ticks (s : State) : (pboolRead s).ticks = s.ticks := rfl

/-! ### What a step reads of the ticks and of the response registers -/

@[simp] theorem State.pending_respond (s : State) (st : Status) (v : Nat) (b : Bool) :
    (s.respond st v b).pending = ⟨st, v, b⟩ := rfl

@[simp] theorem State.tick_of_nil (s : State) (h : s.ticks = []) : s.tick = Tick.eager := by
  simp [State.tick, h]

@[simp] theorem State.popTick_of_nil (s : State) (h : s.ticks = []) : s.popTick = s := by
  cases s; simp_all [State.popTick]

@[simp] theorem Tick.eager_rst : Tick.eager.rst = false := rfl
@[simp] theorem Tick.eager_cmdValid : Tick.eager.cmdValid = true := rfl
@[simp] theorem Tick.eager_rspReady : Tick.eager.rspReady = true := rfl

end Sys2Proof.Machine
end

