-- ==== Sys2Proof/Laws/Operands.lean ====
section
/-! SUPPORT. The arithmetic of groups, of `MAXB` and of the packed-boolean buffer. -/

namespace Sys2Proof.Machine

theorem truncW_lt (p : Params) (v : Nat) : truncW p v < 2 ^ p.width :=
  Nat.mod_lt _ (Nat.two_pow_pos _)

theorem truncW_of_lt {p : Params} {v : Nat} (h : v < 2 ^ p.width) : truncW p v = v :=
  Nat.mod_eq_of_lt h

theorem group_lt (b : Byte) : (group b).toNat < 2 ^ 7 := (group b).isLt

/-- `W <= 7 * MAXB < W + 7` (00_scope.md R7). -/
theorem width_le_seven_maxb (p : Params) : p.width ≤ 7 * maxb p := by unfold maxb; omega

theorem seven_maxb_lt (p : Params) : 7 * maxb p < p.width + 7 := by unfold maxb; omega

theorem maxb_pos {p : Params} (h : p.wf) : 0 < maxb p := by
  unfold maxb; have : 7 ≤ p.width := h; omega

theorem groupTerm_lt (p : Params) (k : Nat) (b : Byte) : groupTerm p k b < 2 ^ p.width := truncW_lt p _

/-- A group at an index from `MAXB` on contributes nothing (00_scope.md R7, 40_varint.md R49). -/
theorem groupTerm_eq_zero {p : Params} {k : Nat} (h : p.width ≤ 7 * k) (b : Byte) : groupTerm p k b = 0 :=
  Nat.mod_eq_zero_of_dvd (Dvd.dvd.mul_left (Nat.pow_dvd_pow 2 h) _)

/-- The groups never overlap, so OR is sum (40_varint.md R49): merging the group of index `k` onto a value
that has only lower groups is truncated addition. -/
theorem or_groupTerm {p : Params} {k acc : Nat} (hk : acc < 2 ^ (7 * k)) (hw : acc < 2 ^ p.width)
    (b : Byte) : acc ||| groupTerm p k b = truncW p (acc + (group b).toNat * 2 ^ (7 * k)) := by
  have key : acc ||| (group b).toNat * 2 ^ (7 * k) = acc + (group b).toNat * 2 ^ (7 * k) := by
    rw [Nat.lor_comm, Nat.mul_comm, ← Nat.two_pow_add_eq_or_of_lt hk, Nat.add_comm]
  rw [← key, truncW, Nat.or_mod_two_pow, Nat.mod_eq_of_lt hw]; rfl

/-- A merge keeps the working register within the groups read so far. -/
theorem or_groupTerm_lt {p : Params} {k acc : Nat} (hk : acc < 2 ^ (7 * k)) (b : Byte) :
    acc ||| groupTerm p k b < 2 ^ (7 * (k + 1)) := by
  refine Nat.or_lt_two_pow (lt_of_lt_of_le hk (Nat.pow_le_pow_right (by omega) (by omega))) ?_
  refine lt_of_le_of_lt (Nat.mod_le _ _) ?_
  have h := Nat.mul_lt_mul_of_pos_right (group_lt b) (Nat.two_pow_pos (7 * k))
  rwa [← Nat.pow_add, show 7 + 7 * k = 7 * (k + 1) by omega] at h

theorem or_groupTerm_lt_width {p : Params} {k acc : Nat} (h : acc < 2 ^ p.width) (b : Byte) :
    acc ||| groupTerm p k b < 2 ^ p.width := Nat.or_lt_two_pow h (groupTerm_lt p k b)

theorem nextIndex_le (p : Params) (k : Nat) : nextIndex p k ≤ maxb p := Nat.min_le_right _ _

@[simp] theorem decRem_val (r : Fin 9) : (decRem r).val = r.val - 1 := rfl

@[simp] theorem decRem_eight : decRem 8 = 7 := rfl

@[simp] theorem dropBit_toNat (buf : Byte) : (dropBit buf).toNat = buf.toNat / 2 := by
  simp [dropBit, Nat.shiftRight_eq_div_pow]

/-- After a shift the buffer has one bit less (10_state.md R14). -/
theorem dropBit_lt {buf : Byte} {n : Nat} (h : buf.toNat < 2 ^ n) (hn : 0 < n) :
    (dropBit buf).toNat < 2 ^ (n - 1) := by
  obtain ⟨m, rfl⟩ : ∃ m, n = m + 1 := ⟨n - 1, by omega⟩
  rw [dropBit_toNat]; simp only [Nat.add_sub_cancel]; rw [Nat.pow_succ] at h; omega

/-- The condition of 40_varint.md R51 as a proposition. -/
theorem guardTrips_iff {p : Params} {k : Nat} {b : Byte} :
    guardTrips p k b = true ↔
      p.policy = .guard ∧ k = maxb p - 1 ∧
        (continues b = true ∨ (group b).toNat / 2 ^ (p.width - 7 * (maxb p - 1)) ≠ 0) := by
  simp only [guardTrips, Bool.and_eq_true, Bool.or_eq_true, decide_eq_true_eq, and_assoc]

/-- Without `GUARD` nothing trips (60_exceptions.md R71). -/
theorem guardTrips_wrap {p : Params} (h : p.policy = .wrap) (k : Nat) (b : Byte) :
    guardTrips p k b = false := by simp [guardTrips, h]

/-- Before the last byte that carries result bits nothing trips (40_varint.md R51). -/
theorem guardTrips_early {p : Params} {k : Nat} (h : k + 1 < maxb p) (b : Byte) :
    guardTrips p k b = false := by
  have : k ≠ maxb p - 1 := by omega
  simp [guardTrips, this]

/-- A continuing byte that does not trip `GUARD` is not the last one it allows. -/
theorem not_trips_continues {p : Params} {k : Nat} {b : Byte} (ht : guardTrips p k b = false)
    (hc : continues b = true) (hg : p.policy = .guard) (hk : k < maxb p) : k + 1 < maxb p := by
  by_contra hcon
  have : k = maxb p - 1 := by omega
  simp [guardTrips, hg, this, hc] at ht

/-- Only `GUARD` trips (60_exceptions.md R71). -/
theorem policy_of_trips {p : Params} {k : Nat} {b : Byte} (h : guardTrips p k b = true) :
    p.policy = .guard := (guardTrips_iff.1 h).1

@[simp] theorem fetched_byte (b : Byte) : fetched ⟨0b00#2, b⟩ = .byte b := rfl

/-- An answer that delivers a byte has `src_kind = 00` (20_memory.md R30). -/
theorem eq_of_fetched_byte {a : Answer} {d : Byte} (h : fetched a = .byte d) : a = ⟨0b00#2, d⟩ := by
  obtain ⟨k, x⟩ := a
  unfold fetched at h
  split at h
  · rename_i hk; simp_all
  · split at h <;> cases h

@[simp] theorem byteAnswers_nil : byteAnswers [] = [] := rfl

@[simp] theorem byteAnswers_cons (b : Byte) (bs : List Byte) :
    byteAnswers (b :: bs) = .answer ⟨0b00#2, b⟩ :: byteAnswers bs := rfl

theorem byteAnswers_append (as bs : List Byte) :
    byteAnswers (as ++ bs) = byteAnswers as ++ byteAnswers bs := by simp [byteAnswers]

@[simp] theorem bytesIn_nil : bytesIn [] = 0 := rfl

end Sys2Proof.Machine
end

