-- ==== Sys2Proof/Laws/Ops.lean ====
section
/-! SUPPORT. For each shared operation, everything it can do. -/

namespace Sys2Proof.Machine

@[simp] theorem accept_idle {s : State} (h : s.fsm = .idle) (f : State → State) : accept s f = f s := by
  simp [accept, h]

@[simp] theorem accept_busy {s : State} (h : s.fsm ≠ .idle) (f : State → State) : accept s f = s := by
  simp [accept, h]

/-! ### `FetchByte()` (20_memory.md R21) -/

theorem fetchByte_nil {s : State} (h : s.answers = []) : fetchByte s = .waiting s := by
  simp [fetchByte, h]

theorem fetchByte_withhold {s : State} {rest : List SrcEvent} (h : s.answers = .withhold :: rest) :
    fetchByte s = .waiting { s with answers := rest } := by simp [fetchByte, h]

theorem fetchByte_byte {s : State} {d : Byte} {rest : List SrcEvent}
    (h : s.answers = .answer ⟨0b00#2, d⟩ :: rest) :
    fetchByte s = .byte d { s with answers := rest, pos := s.pos + 1 } := by simp [fetchByte, h]

theorem fetchByte_eos {s : State} {a : Answer} {rest : List SrcEvent} (h : s.answers = .answer a :: rest)
    (ha : fetched a = .eos) : fetchByte s = .failed .streamExhausted { s with answers := rest } := by
  simp [fetchByte, h, ha]

theorem fetchByte_ioErr {s : State} {a : Answer} {rest : List SrcEvent} (h : s.answers = .answer a :: rest)
    (ha : fetched a = .ioErr) : fetchByte s = .failed .ioError { s with answers := rest } := by
  simp [fetchByte, h, ha]

/-- A fetch that waits found no answer, and used up at most a delay. -/
theorem fetchByte_waiting_inv {s s' : State} (h : fetchByte s = .waiting s') :
    (s.answers = [] ∧ s' = s) ∨
    ∃ rest, s.answers = .withhold :: rest ∧ s' = { s with answers := rest } := by
  unfold fetchByte at h
  split at h
  · exact .inl ⟨‹_›, by cases h; rfl⟩
  · exact .inr ⟨_, ‹_›, by cases h; rfl⟩
  · split at h <;> cases h

/-- A fetch that delivers a byte used up one answer and moved the cursor by one (20_memory.md R22). -/
theorem fetchByte_byte_inv {s s' : State} {d : Byte} (h : fetchByte s = .byte d s') :
    ∃ rest, s.answers = .answer ⟨0b00#2, d⟩ :: rest ∧
      s' = { s with answers := rest, pos := s.pos + 1 } := by
  unfold fetchByte at h
  split at h
  · cases h
  · cases h
  · rename_i a rest ha
    split at h
    · rename_i d' hd
      cases h
      exact ⟨rest, by rw [ha, eq_of_fetched_byte hd], rfl⟩
    · cases h
    · cases h

/-- A fetch that fails used up one answer and took no byte (20_memory.md R21). -/
theorem fetchByte_failed_inv {s s' : State} {e : Status} (h : fetchByte s = .failed e s') :
    ∃ a rest, s.answers = .answer a :: rest ∧ s' = { s with answers := rest } ∧
      ((fetched a = .eos ∧ e = .streamExhausted) ∨ (fetched a = .ioErr ∧ e = .ioError)) := by
  unfold fetchByte at h
  split at h
  · cases h
  · cases h
  · rename_i a rest ha
    split at h
    · cases h
    · cases h; exact ⟨a, rest, ha, rfl, .inl ⟨‹_›, rfl⟩⟩
    · cases h; exact ⟨a, rest, ha, rfl, .inr ⟨‹_›, rfl⟩⟩

/-! ### What a step does -/

theorem event_reset {s : State} (h : s.tick.rst = true) : s.event = .reset := by simp [State.event, h]

theorem event_accept {s : State} {op : CmdWord} {rest : List CmdWord} (hf : s.fsm = .idle)
    (hr : s.tick.rst = false) (hv : s.tick.cmdValid = true) (hc : s.commands = op :: rest) :
    s.event = .accept op rest := by simp [State.event, hf, hr, hv, hc]

theorem event_varintPoll {s : State} (hf : s.fsm = .viWait) (hr : s.tick.rst = false) :
    s.event = .varintPoll := by simp [State.event, hf, hr]

theorem event_pboolPoll {s : State} (hf : s.fsm = .pbWait) (hr : s.tick.rst = false) :
    s.event = .pboolPoll := by simp [State.event, hf, hr]

theorem event_deliver {s : State} (hf : s.fsm = .resp) (hr : s.tick.rst = false)
    (hv : s.tick.rspReady = true) : s.event = .deliver := by simp [State.event, hf, hr, hv]

/-- Every event says what the outside chose and which FSM state the block is in. -/
theorem event_cases (s : State) :
    (s.event = .reset ∧ s.tick.rst = true) ∨
    (∃ op rest, s.event = .accept op rest ∧ s.tick.rst = false ∧ s.fsm = .idle ∧
      s.tick.cmdValid = true ∧ s.commands = op :: rest) ∨
    (s.event = .varintPoll ∧ s.tick.rst = false ∧ s.fsm = .viWait) ∨
    (s.event = .pboolPoll ∧ s.tick.rst = false ∧ s.fsm = .pbWait) ∨
    (s.event = .deliver ∧ s.tick.rst = false ∧ s.fsm = .resp ∧ s.tick.rspReady = true) ∨
    (s.event = .hold ∧ s.tick.rst = false ∧
      ((s.fsm = .idle ∧ (s.commands = [] ∨ s.tick.cmdValid = false)) ∨
       (s.fsm = .resp ∧ s.tick.rspReady = false))) := by
  unfold State.event
  cases hr : s.tick.rst
  · cases hf : s.fsm
    · cases hc : s.commands
      · simp
      · cases hv : s.tick.cmdValid <;> simp
    · simp
    · simp
    · cases hv : s.tick.rspReady <;> simp
  · simp

end Sys2Proof.Machine
end

