-- ==== Sys2Proof/Laws/PackedBool.lean ====
section
/-! SUPPORT. `PBOOL` and `PBFIN` (41_packed_boolean.md R55, R58) and the reserved command: what each can
do. -/

namespace Sys2Proof.Machine

theorem execPbool_unread {s : State} (h : s.fsm = .idle) (hr : s.pbRem ≠ 0) :
    execPbool s = .next (pboolRead s) := by simp [execPbool, h, hr]

theorem execPbool_empty {s : State} (h : s.fsm = .idle) (hr : s.pbRem = 0) :
    execPbool s = .next (pboolRefill { s with fsm := .pbWait }) := by simp [execPbool, h, hr]

theorem execPbool_busy {s : State} (h : s.fsm ≠ .idle) : execPbool s = .next s := by simp [execPbool, h]

theorem execPbfin_idle {s : State} (h : s.fsm = .idle) :
    execPbfin s = .next ({ s with pbRem := 0 }.respond .ok 0 false) := by simp [execPbfin, h]

theorem execPbfin_busy {s : State} (h : s.fsm ≠ .idle) : execPbfin s = .next s := by simp [execPbfin, h]

theorem reservedCommand_idle {s : State} (h : s.fsm = .idle) :
    reservedCommand s = s.raise .illegalCommand := by simp [reservedCommand, h]

/-- Everything a refill can do (41_packed_boolean.md R56): wait, fail with the packed-boolean state
unchanged, or load a byte and read its bit 0. -/
theorem pboolRefill_cases (s : State) :
    (withheld s.answers = true ∧ pboolRefill s = { s with answers := s.answers.tail }) ∨
    (∃ a rest e, s.answers = .answer a :: rest ∧
      ((fetched a = .eos ∧ e = .streamExhausted) ∨ (fetched a = .ioErr ∧ e = .ioError)) ∧
      pboolRefill s = { s with answers := rest }.raise e) ∨
    (∃ d rest, s.answers = .answer ⟨0b00#2, d⟩ :: rest ∧
      pboolRefill s =
        { s with
          answers := rest, pos := s.pos + 1, pbBuffer := dropBit d, pbRem := 7, fsm := .resp,
          rspStatus := .ok, rspValue := 0, rspBool := firstBit d }) := by
  cases hf : fetchByte s with
  | waiting s' =>
    refine .inl ?_
    rcases fetchByte_waiting_inv hf with ⟨h, hs⟩ | ⟨rest, h, rfl⟩
    · refine ⟨by simp [h, withheld], ?_⟩
      simp only [pboolRefill, hf, hs]
      cases s; simp_all
    · exact ⟨by simp [h, withheld], by simp [pboolRefill, hf, h]⟩
  | failed e s' =>
    obtain ⟨a, rest, h, rfl, he⟩ := fetchByte_failed_inv hf
    exact .inr (.inl ⟨a, rest, e, h, he, by simp [pboolRefill, hf]⟩)
  | byte d s' =>
    obtain ⟨rest, h, rfl⟩ := fetchByte_byte_inv hf
    exact .inr (.inr ⟨d, rest, h, by simp only [pboolRefill, hf]; rfl⟩)

/-- A refill touches neither the caller nor the parameters. -/
theorem pboolRefill_others (s : State) : sameOthers s (pboolRefill s) := by
  rcases pboolRefill_cases s with ⟨-, h⟩ | ⟨a, rest, e, -, -, h⟩ | ⟨d, rest, -, h⟩ <;>
    simp [h, sameOthers]

end Sys2Proof.Machine
end

