-- ==== Sys2Proof/Laws/PerInstr.lean ====
section
/-! SUPPORT. Statements for all instructions, one lemma per constructor. -/

namespace Sys2Proof.Laws.EncodedWord

/-- An instruction is well formed and its word is not the reserved one (30_encoding.md R35). -/
def Statement (i : Instr) : Prop := i.wf = true ∧ encode i ≠ 0b11#2

theorem varint : Statement .varint := ⟨rfl, by decide⟩
theorem pbool : Statement .pbool := ⟨rfl, by decide⟩
theorem pbfin : Statement .pbfin := ⟨rfl, by decide⟩

end Sys2Proof.Laws.EncodedWord
end

