-- ==== Sys2Proof/Laws/Varint.lean ====
section
/-! SUPPORT. The loop of `VARINT` (40_varint.md R47): one lemma per turn, what the whole loop leaves alone,
and what a run of continuation bytes comes to. -/

namespace Sys2Proof.Machine

theorem execVarint_idle {s : State} (h : s.fsm = .idle) :
    execVarint s = .next (varintLoop s.answers (varintStart s)) := by
  simp [execVarint, h, varintResume]

theorem execVarint_busy {s : State} (h : s.fsm ≠ .idle) : execVarint s = .next s := by
  simp [execVarint, h]

/-! ### One turn of the loop -/

/-- No answer: the command waits, and a delay is used up (20_memory.md R31). -/
theorem varintLoop_withheld {s : State} (h : withheld s.answers = true) :
    varintLoop s.answers s = { s with answers := s.answers.tail } := by
  obtain ⟨p, pb, pr, f, va, vk, rs, rv, rb, po, an, cm, rc, ti⟩ := s
  cases an with
  | nil => rfl
  | cons e es => cases e <;> first | rfl | simp [withheld] at h

/-- An answer that is no byte ends the command (60_exceptions.md R69, R70). -/
theorem varintLoop_failed {s : State} {a : Answer} {rest : List SrcEvent} {e : Status}
    (h : s.answers = .answer a :: rest)
    (he : (fetched a = .eos ∧ e = .streamExhausted) ∨ (fetched a = .ioErr ∧ e = .ioError)) :
    varintLoop s.answers s = { s with answers := rest }.raise e := by
  rcases he with ⟨ha, rfl⟩ | ⟨ha, rfl⟩
  · rw [h, varintLoop, fetchByte_eos h ha]
  · rw [h, varintLoop, fetchByte_ioErr h ha]

/-- A byte that trips `GUARD` ends the command (40_varint.md R51). -/
theorem varintLoop_trips {s : State} {b : Byte} {rest : List SrcEvent}
    (h : s.answers = .answer ⟨0b00#2, b⟩ :: rest) (ht : guardTrips s.params s.viK b = true) :
    varintLoop s.answers s = { s with answers := rest, pos := s.pos + 1 }.raise .varintOverflow := by
  rw [h, varintLoop, fetchByte_byte h]; simp [ht]

/-- A continuation byte is merged and the loop goes on (40_varint.md R47). -/
theorem varintLoop_continues {s : State} {b : Byte} {rest : List SrcEvent}
    (h : s.answers = .answer ⟨0b00#2, b⟩ :: rest) (ht : guardTrips s.params s.viK b = false)
    (hc : continues b = true) :
    varintLoop s.answers s =
      varintLoop rest
        { s with
          answers := rest, pos := s.pos + 1, viAcc := s.viAcc ||| groupTerm s.params s.viK b,
          viK := nextIndex s.params s.viK } := by
  rw [h, varintLoop, fetchByte_byte h]; simp [ht, hc]; rfl

/-- The last byte is merged and the value is the response (40_varint.md R47). -/
theorem varintLoop_last {s : State} {b : Byte} {rest : List SrcEvent}
    (h : s.answers = .answer ⟨0b00#2, b⟩ :: rest) (ht : guardTrips s.params s.viK b = false)
    (hc : continues b = false) :
    varintLoop s.answers s =
      { s with
        answers := rest, pos := s.pos + 1, viAcc := s.viAcc ||| groupTerm s.params s.viK b, fsm := .resp,
        rspStatus := .ok, rspValue := s.viAcc ||| groupTerm s.params s.viK b, rspBool := false } := by
  rw [h, varintLoop, fetchByte_byte h]; simp [ht, hc]; rfl

/-- Everything one turn of the loop can do. -/
theorem varintLoop_cases (s : State) :
    (withheld s.answers = true ∧ varintLoop s.answers s = { s with answers := s.answers.tail }) ∨
    (∃ a rest e, s.answers = .answer a :: rest ∧
      ((fetched a = .eos ∧ e = .streamExhausted) ∨ (fetched a = .ioErr ∧ e = .ioError)) ∧
      varintLoop s.answers s = { s with answers := rest }.raise e) ∨
    (∃ b rest, s.answers = .answer ⟨0b00#2, b⟩ :: rest ∧ guardTrips s.params s.viK b = true ∧
      varintLoop s.answers s = { s with answers := rest, pos := s.pos + 1 }.raise .varintOverflow) ∨
    (∃ b rest, s.answers = .answer ⟨0b00#2, b⟩ :: rest ∧ guardTrips s.params s.viK b = false ∧
      continues b = true ∧
      varintLoop s.answers s =
        varintLoop rest
          { s with
            answers := rest, pos := s.pos + 1, viAcc := s.viAcc ||| groupTerm s.params s.viK b,
            viK := nextIndex s.params s.viK }) ∨
    (∃ b rest, s.answers = .answer ⟨0b00#2, b⟩ :: rest ∧ guardTrips s.params s.viK b = false ∧
      continues b = false ∧
      varintLoop s.answers s =
        { s with
          answers := rest, pos := s.pos + 1, viAcc := s.viAcc ||| groupTerm s.params s.viK b, fsm := .resp,
          rspStatus := .ok, rspValue := s.viAcc ||| groupTerm s.params s.viK b, rspBool := false }) := by
  cases hf : fetchByte s with
  | waiting s' =>
    have hw : withheld s.answers = true := by
      rcases fetchByte_waiting_inv hf with ⟨h, -⟩ | ⟨rest, h, -⟩ <;> simp [h, withheld]
    exact .inl ⟨hw, varintLoop_withheld hw⟩
  | failed e s' =>
    obtain ⟨a, rest, h, rfl, he⟩ := fetchByte_failed_inv hf
    exact .inr (.inl ⟨a, rest, e, h, he, varintLoop_failed h he⟩)
  | byte b s' =>
    obtain ⟨rest, h, -⟩ := fetchByte_byte_inv hf
    cases ht : guardTrips s.params s.viK b
    · cases hc : continues b
      · exact .inr (.inr (.inr (.inr ⟨b, rest, h, ht, hc, varintLoop_last h ht hc⟩)))
      · exact .inr (.inr (.inr (.inl ⟨b, rest, h, ht, hc, varintLoop_continues h ht hc⟩)))
    · exact .inr (.inr (.inl ⟨b, rest, h, ht, varintLoop_trips h ht⟩))

/-- Induction over the loop, packaged once: a relation between the state before and the state after holds of
every run if each way a turn can end has it and a turn that continues carries it. -/
theorem varintLoop_induction (P : State → State → Prop)
    (waiting : ∀ s, withheld s.answers = true → P s { s with answers := s.answers.tail })
    (failed : ∀ s a rest e, s.answers = .answer a :: rest →
      ((fetched a = .eos ∧ e = .streamExhausted) ∨ (fetched a = .ioErr ∧ e = .ioError)) →
      P s ({ s with answers := rest }.raise e))
    (trips : ∀ s b rest, s.answers = .answer ⟨0b00#2, b⟩ :: rest → guardTrips s.params s.viK b = true →
      P s ({ s with answers := rest, pos := s.pos + 1 }.raise .varintOverflow))
    (last : ∀ s b rest, s.answers = .answer ⟨0b00#2, b⟩ :: rest → guardTrips s.params s.viK b = false →
      continues b = false →
      P s { s with
        answers := rest, pos := s.pos + 1, viAcc := s.viAcc ||| groupTerm s.params s.viK b, fsm := .resp,
        rspStatus := .ok, rspValue := s.viAcc ||| groupTerm s.params s.viK b, rspBool := false })
    (more : ∀ s b rest t, s.answers = .answer ⟨0b00#2, b⟩ :: rest → guardTrips s.params s.viK b = false →
      continues b = true →
      P { s with
        answers := rest, pos := s.pos + 1, viAcc := s.viAcc ||| groupTerm s.params s.viK b,
        viK := nextIndex s.params s.viK } t → P s t)
    (s : State) : P s (varintLoop s.answers s) := by
  suffices H : ∀ es (s : State), s.answers = es → P s (varintLoop s.answers s) from H _ s rfl
  intro es
  induction es with
  | nil =>
    intro s hs
    have hw : withheld s.answers = true := by rw [hs]; rfl
    rw [varintLoop_withheld hw]; exact waiting s hw
  | cons e es ih =>
    intro s hs
    rcases varintLoop_cases s with ⟨hw, h⟩ | ⟨a, rest, e', ha, he, h⟩ | ⟨b, rest, hb, ht, h⟩ |
      ⟨b, rest, hb, ht, hc, h⟩ | ⟨b, rest, hb, ht, hc, h⟩
    · rw [h]; exact waiting s hw
    · rw [h]; exact failed s a rest e' ha he
    · rw [h]; exact trips s b rest hb ht
    · rw [h]
      have hr : es = rest := by rw [hs] at hb; exact (List.cons.inj hb).2
      exact more s b rest _ hb ht hc (ih _ (by simp [hr]))
    · rw [h]; exact last s b rest hb ht hc

/-- The loop touches neither the packed-boolean state nor the caller nor the parameters (40_varint.md
R53). -/
theorem varintLoop_frame (s : State) :
    (varintLoop s.answers s).pbBuffer = s.pbBuffer ∧ (varintLoop s.answers s).pbRem = s.pbRem ∧
    sameOthers s (varintLoop s.answers s) := by
  refine varintLoop_induction
    (fun s t => t.pbBuffer = s.pbBuffer ∧ t.pbRem = s.pbRem ∧ sameOthers s t) ?_ ?_ ?_ ?_ ?_ s <;>
    simp [sameOthers]

/-! ### Runs of continuation bytes -/

@[simp] theorem spelled_nil : spelled [] = 0 := rfl

@[simp] theorem spelled_cons (b : Byte) (bs : List Byte) :
    spelled (b :: bs) = (group b).toNat + 2 ^ 7 * spelled bs := rfl

/-- Appending a byte adds its group at the next position (30_encoding.md R41). -/
theorem spelled_append_singleton (bs : List Byte) (b : Byte) :
    spelled (bs ++ [b]) = spelled bs + (group b).toNat * 2 ^ (7 * bs.length) := by
  induction bs with
  | nil => simp
  | cons a as ih =>
    have hp : 2 ^ (7 * (as.length + 1)) = 2 ^ 7 * 2 ^ (7 * as.length) := by rw [← Nat.pow_add]; congr 1; omega
    simp only [List.cons_append, spelled_cons, List.length_cons, ih, hp]; ring

/-- `n` bytes spell less than `2^(7n)`. -/
theorem spelled_lt (bs : List Byte) : spelled bs < 2 ^ (7 * bs.length) := by
  induction bs with
  | nil => simp
  | cons a as ih =>
    have hp : 2 ^ (7 * (as.length + 1)) = 2 ^ 7 * 2 ^ (7 * as.length) := by rw [← Nat.pow_add]; congr 1; omega
    have := group_lt a
    simp only [spelled_cons, List.length_cons, hp]
    generalize 2 ^ (7 * as.length) = q at *; omega

@[simp] theorem unfinished_nil : unfinished [] = true := rfl

@[simp] theorem unfinished_cons (b : Byte) (bs : List Byte) :
    unfinished (b :: bs) = (continues b && unfinished bs) := rfl

/-- A VarInt is a run of continuation bytes and a last byte (30_encoding.md R41). -/
theorem isVarInt_iff (bs : List Byte) :
    isVarInt bs = true ↔ ∃ pre b, bs = pre ++ [b] ∧ unfinished pre = true ∧ continues b = false := by
  induction bs with
  | nil => simp [isVarInt]
  | cons a as ih =>
    cases as with
    | nil =>
      simp only [isVarInt, Bool.not_eq_eq_eq_not, Bool.not_true]
      constructor
      · exact fun h => ⟨[], a, rfl, rfl, h⟩
      · rintro ⟨pre, b, h, -, hb⟩
        cases pre with
        | nil => cases h; exact hb
        | cons c cs => simp at h
    | cons c cs =>
      simp only [isVarInt, Bool.and_eq_true, ih]
      constructor
      · rintro ⟨ha, pre, b, h, hp, hb⟩
        exact ⟨a :: pre, b, by rw [h]; rfl, by simp [ha, hp], hb⟩
      · rintro ⟨pre, b, h, hp, hb⟩
        cases pre with
        | nil => simp at h
        | cons d ds =>
          simp only [List.cons_append, List.cons.injEq] at h
          obtain ⟨rfl, h⟩ := h
          simp only [unfinished_cons, Bool.and_eq_true] at hp
          exact ⟨hp.1, ds, b, h, hp.2, hb⟩

/-- Adding groups below and above the index, one truncation or two. -/
theorem truncW_step {p : Params} {k : Nat} (hk : k ≤ maxb p) (acc g v : Nat) :
    truncW p (truncW p (acc + g * 2 ^ (7 * k)) + v * 2 ^ (7 * nextIndex p k)) =
      truncW p (acc + (g + 2 ^ 7 * v) * 2 ^ (7 * k)) := by
  unfold truncW
  rw [Nat.add_mod, Nat.mod_mod, ← Nat.add_mod]
  rcases Nat.lt_or_ge k (maxb p) with h | h
  · have : nextIndex p k = k + 1 := by unfold nextIndex; omega
    rw [this, show 7 * (k + 1) = 7 + 7 * k by omega, Nat.pow_add]
    congr 1; ring
  · have hn : nextIndex p k = k := by unfold nextIndex; omega
    have hd : 2 ^ p.width ∣ 2 ^ (7 * k) :=
      Nat.pow_dvd_pow 2 ((width_le_seven_maxb p).trans (by omega))
    obtain ⟨q, hq⟩ := hd
    rw [hn, hq]
    rw [show acc + g * (2 ^ p.width * q) + v * (2 ^ p.width * q) = acc + 2 ^ p.width * (g * q + v * q) by ring,
      show acc + (g + 2 ^ 7 * v) * (2 ^ p.width * q) = acc + 2 ^ p.width * ((g + 2 ^ 7 * v) * q) by ring,
      Nat.add_mul_mod_self_left, Nat.add_mul_mod_self_left]

/-- The state of a running `VARINT` after the continuation bytes `bs`, the source's further events being
`es`. -/
def afterRun (s : State) (bs : List Byte) (es : List SrcEvent) : State :=
  { s with
    answers := es, pos := s.pos + bs.length,
    viAcc := truncW s.params (s.viAcc + spelled bs * 2 ^ (7 * s.viK)),
    viK := min (s.viK + bs.length) (maxb s.params) }

/-- What a run of continuation bytes comes to: the loop goes on from `afterRun` (40_varint.md R47, R50;
under `GUARD` as long as the run is shorter than `MAXB`, R51). -/
theorem varintLoop_run (bs : List Byte) : ∀ (s : State) (es : List SrcEvent),
    s.answers = byteAnswers bs ++ es → unfinished bs = true →
    s.viAcc < 2 ^ (7 * s.viK) → s.viAcc < 2 ^ s.params.width → s.viK ≤ maxb s.params →
    (s.params.policy = .guard → s.viK + bs.length < maxb s.params) →
    varintLoop s.answers s = varintLoop es (afterRun s bs es) := by
  induction bs with
  | nil =>
    intro s es hs _ _ hw hk _
    simp only [byteAnswers_nil, List.nil_append] at hs
    have : afterRun s [] es = s := by
      cases s; simp_all [afterRun, truncW_of_lt]
    rw [this, hs]
  | cons b bs ih =>
    intro s es hs hu ha hw hk hg
    simp only [byteAnswers_cons, List.cons_append] at hs
    simp only [unfinished_cons, Bool.and_eq_true] at hu
    have ht : guardTrips s.params s.viK b = false := by
      cases hp : s.params.policy with
      | wrap => exact guardTrips_wrap hp _ _
      | guard =>
        have := hg hp
        simp only [List.length_cons] at this
        exact guardTrips_early (by omega) b
    rw [varintLoop_continues hs ht hu.1]
    have ih' := ih
      { s with
        answers := byteAnswers bs ++ es, pos := s.pos + 1,
        viAcc := s.viAcc ||| groupTerm s.params s.viK b, viK := nextIndex s.params s.viK }
      es rfl hu.2 ?_ (or_groupTerm_lt_width hw b) (nextIndex_le _ _) ?_
    · simp only at ih'
      rw [ih']
      congr 1
      simp only [afterRun, or_groupTerm ha hw, truncW_step hk, spelled_cons, List.length_cons]
      congr 1
      · unfold nextIndex; omega
      · omega
    · simp only
      rcases Nat.lt_or_ge s.viK (maxb s.params) with h | h
      · have : nextIndex s.params s.viK = s.viK + 1 := by unfold nextIndex; omega
        rw [this]; exact or_groupTerm_lt ha b
      · have hn : nextIndex s.params s.viK = s.viK := by unfold nextIndex; omega
        rw [hn, groupTerm_eq_zero ((width_le_seven_maxb _).trans (by omega)), Nat.or_zero]
        exact ha
    · intro hp
      have := hg hp
      simp only [List.length_cons, nextIndex] at this ⊢
      omega

/-- The loop neither reads nor writes the coming ticks. -/
theorem varintLoop_ticks (T : List Tick) (es : List SrcEvent) :
    ∀ s : State, varintLoop es { s with ticks := T } = { varintLoop es s with ticks := T } := by
  induction es with
  | nil => intro s; rfl
  | cons e es ih =>
    intro s
    simp only [varintLoop, fetchByte]
    rcases hs : s.answers with _ | ⟨_ | _, rest⟩
    · simp only [hs]
    · rename_i a
      simp only
      cases hq : fetched a with
      | eos => rfl
      | ioErr => rfl
      | byte b =>
        simp only
        split
        · rfl
        · split
          · exact ih (varintAdvance (varintMerge b { s with answers := rest, pos := s.pos + 1 }))
          · rfl
    · simp only

end Sys2Proof.Machine
end

