-- ==== Sys2Proof/Laws/Step.lean ====
section
/-! SUPPORT. What a step can do, said once. -/

namespace Sys2Proof.Machine

@[simp] theorem exec_varint (s : State) : exec .varint s = execVarint s := rfl
@[simp] theorem exec_pbool (s : State) : exec .pbool s = execPbool s := rfl
@[simp] theorem exec_pbfin (s : State) : exec .pbfin s = execPbfin s := rfl

/-- What a command word does to an idle block (30_encoding.md R35, R36). -/
theorem runCommand_cases (op : CmdWord) {s : State} (h : s.fsm = .idle) :
    (op = 0b00#2 ∧ runCommand op s = .next (varintLoop s.answers (varintStart s))) ∨
    (op = 0b01#2 ∧ s.pbRem ≠ 0 ∧ runCommand op s = .next (pboolRead s)) ∨
    (op = 0b01#2 ∧ s.pbRem = 0 ∧ runCommand op s = .next (pboolRefill { s with fsm := .pbWait })) ∨
    (op = 0b10#2 ∧ runCommand op s = .next ({ s with pbRem := 0 }.respond .ok 0 false)) ∨
    (op = 0b11#2 ∧ runCommand op s = .next (s.raise .illegalCommand)) := by
  have hop : op = 0b00#2 ∨ op = 0b01#2 ∨ op = 0b10#2 ∨ op = 0b11#2 := by
    revert op; decide
  rcases hop with rfl | rfl | rfl | rfl
  · exact .inl ⟨rfl, execVarint_idle h⟩
  · by_cases hr : s.pbRem = 0
    · exact .inr (.inr (.inl ⟨rfl, hr, execPbool_empty h hr⟩))
    · exact .inr (.inl ⟨rfl, hr, execPbool_unread h hr⟩)
  · exact .inr (.inr (.inr (.inl ⟨rfl, execPbfin_idle h⟩)))
  · exact .inr (.inr (.inr (.inr ⟨rfl, by rw [← reservedCommand_idle h]; rfl⟩)))

/-- A command word leaves the parameters, the caller and the coming ticks alone. -/
theorem runCommand_others (op : CmdWord) {s t : State} (h : s.fsm = .idle)
    (ht : runCommand op s = .next t) : sameOthers s t := by
  rcases runCommand_cases op h with ⟨_, h'⟩ | ⟨_, _, h'⟩ | ⟨_, _, h'⟩ | ⟨_, h'⟩ | ⟨_, h'⟩ <;>
    (rw [h'] at ht; cases ht)
  · exact (varintLoop_frame (varintStart s)).2.2
  · simp [sameOthers]
  · exact pboolRefill_others { s with fsm := .pbWait }
  · simp [sameOthers]
  · simp [sameOthers]

/-! ### The step, event by event -/

theorem step_reset {s : State} (hr : s.tick.rst = true) : step s = .next s.popTick.resetBlock := by
  simp [step, event_reset hr]

theorem step_accept {s : State} {op : CmdWord} {rest : List CmdWord} (hf : s.fsm = .idle)
    (hr : s.tick.rst = false) (hv : s.tick.cmdValid = true) (hc : s.commands = op :: rest) :
    step s = runCommand op { s.popTick with commands := rest } := by
  simp [step, event_accept hf hr hv hc]

theorem step_varintPoll {s : State} (hf : s.fsm = .viWait) (hr : s.tick.rst = false) :
    step s = .next (varintLoop s.answers s.popTick) := by
  simp [step, event_varintPoll hf hr, varintResume]

theorem step_pboolPoll {s : State} (hf : s.fsm = .pbWait) (hr : s.tick.rst = false) :
    step s = .next (pboolRefill s.popTick) := by simp [step, event_pboolPoll hf hr]

theorem step_deliver {s : State} (hf : s.fsm = .resp) (hr : s.tick.rst = false)
    (hv : s.tick.rspReady = true) : step s = .next s.popTick.takeResponse := by
  simp [step, event_deliver hf hr hv]

/-- Everything a step can do, with what the outside chose. -/
theorem step_cases (s : State) :
    (s.tick.rst = true ∧ step s = .next s.popTick.resetBlock) ∨
    (∃ op rest, s.tick.rst = false ∧ s.fsm = .idle ∧ s.tick.cmdValid = true ∧ s.commands = op :: rest ∧
      step s = runCommand op { s.popTick with commands := rest }) ∨
    (s.tick.rst = false ∧ s.fsm = .viWait ∧ step s = .next (varintLoop s.answers s.popTick)) ∨
    (s.tick.rst = false ∧ s.fsm = .pbWait ∧ step s = .next (pboolRefill s.popTick)) ∨
    (s.tick.rst = false ∧ s.fsm = .resp ∧ s.tick.rspReady = true ∧
      step s = .next s.popTick.takeResponse) ∨
    (s.tick.rst = false ∧
      ((s.fsm = .idle ∧ (s.commands = [] ∨ s.tick.cmdValid = false)) ∨
       (s.fsm = .resp ∧ s.tick.rspReady = false)) ∧
      step s = .next s.popTick) := by
  rcases event_cases s with ⟨h, hr⟩ | ⟨op, rest, h, hr, hf, hv, hc⟩ | ⟨h, hr, hf⟩ | ⟨h, hr, hf⟩ |
    ⟨h, hr, hf, hv⟩ | ⟨h, hr, hf⟩
  · exact .inl ⟨hr, by simp [step, h]⟩
  · exact .inr (.inl ⟨op, rest, hr, hf, hv, hc, by simp [step, h]⟩)
  · exact .inr (.inr (.inl ⟨hr, hf, by simp [step, h, varintResume]⟩))
  · exact .inr (.inr (.inr (.inl ⟨hr, hf, by simp [step, h]⟩)))
  · exact .inr (.inr (.inr (.inr (.inl ⟨hr, hf, hv, by simp [step, h]⟩))))
  · exact .inr (.inr (.inr (.inr (.inr ⟨hr, hf, by simp [step, h]⟩))))

/-- A run of `k + 1` steps is a step and a run of `k`. -/
theorem run_succ_of_step {s t : State} (h : step s = .next t) (k : Nat) :
    Host.Core.run Sys2Proof.core (k + 1) s = Host.Core.run Sys2Proof.core k t := by
  have h' : Sys2Proof.core.step s = .next t := h
  simp [Host.Core.run, h']

/-- With no tick left an idle block accepts its caller's next word. -/
theorem step_accept_eager {s : State} {op : CmdWord} {rest : List CmdWord} (hf : s.fsm = .idle)
    (ht : s.ticks = []) (hc : s.commands = op :: rest) :
    step s = runCommand op { s with commands := rest } := by
  rw [step_accept hf (by simp [ht]) (by simp [ht]) hc]; simp [ht]

/-- With no tick left a pending response is taken. -/
theorem step_deliver_eager {s : State} (hf : s.fsm = .resp) (ht : s.ticks = []) :
    step s = .next s.takeResponse := by
  rw [step_deliver hf (by simp [ht]) (by simp [ht])]; simp [ht]

/-- A command that ends at once takes two steps: it runs, and its response is taken. -/
theorem run_two_steps {s t : State} {op : CmdWord} {rest : List CmdWord} (k : Nat) (hf : s.fsm = .idle)
    (ht : s.ticks = []) (hc : s.commands = op :: rest)
    (h : runCommand op { s with commands := rest } = .next t) (hr : t.fsm = .resp) :
    Host.Core.run Sys2Proof.core (k + 2) s = Host.Core.run Sys2Proof.core k t.takeResponse := by
  rw [run_succ_of_step ((step_accept_eager hf ht hc).trans h),
    run_succ_of_step (step_deliver_eager hr
      ((runCommand_others op (s := { s with commands := rest }) hf h).2.2.2.trans ht))]

end Sys2Proof.Machine
end

