-- ==== Sys2Proof/Tests/Slice0.lean ====
section
/-! SUPPORT. The model's own tests. Expected results are those of spec/95_test_vectors.md (its row is named)
or are written out by hand from the rule named; the witnesses show, for each statement with hypotheses, a
state and operands that meet them all together. -/

namespace Sys2Proof.Tests

open Sys2Proof.Machine

/-! ## Helpers -/

/-- A block just reset, built with `W` and `OVF_POLICY`, beside a source that answers these bytes. -/
def built (w : Nat) (p : OvfPolicy) (bytes : List Byte) : State :=
  { State.reset with params := ⟨w, p⟩, answers := byteAnswers bytes }

/-- The default block with this packed-boolean state, beside a source that answers these bytes. -/
def packed (buf : Byte) (rem : Fin 9) (bytes : List Byte) : State :=
  { built 32 .wrap bytes with pbBuffer := buf, pbRem := rem }

/-- The default block beside a caller with these command words. -/
def calling (cmds : List CmdWord) (bytes : List Byte) : State :=
  { built 32 .wrap bytes with commands := cmds }

/-- The next state, if there is one. -/
def after : Host.Outcome State Fault Refusal → Option State
  | .next s => some s
  | .fault _ => none
  | .refused _ => none

/-- The pending response, the cursor and the packed-boolean state. -/
def seen (o : Host.Outcome State Fault Refusal) : Option (Response × Nat × Byte × Nat) :=
  (after o).map fun s => (s.pending, s.pos, s.pbBuffer, s.pbRem.val)

/-- `11` on the source channel (20_memory.md R30). -/
def reservedAnswer : SrcEvent := .answer ⟨0b11#2, 0x55#8⟩

/-! ## Well-formedness smoke -/

/-- 00_scope.md R5: `W >= 7`. -/
theorem test_params_wf_refuses_six : ¬ (⟨6, .wrap⟩ : Params).wf ∧ (⟨7, .wrap⟩ : Params).wf := by decide

/-- 30_encoding.md R46: `m >= 1`. -/
theorem test_pbgroup_zero_refused : (AsmLine.pbgroup 0).wf = false ∧
    parseLine ['P', 'B', 'G', 'R', 'O', 'U', 'P', ' ', '0'] = .malformed := by decide

/-- 30_encoding.md R44: no command has an operand that could be ill formed. -/
theorem test_every_command_wf : Instr.wf .varint && Instr.wf .pbool && Instr.wf .pbfin = true := by decide

/-! ## Decoding: words written out from the table of 30_encoding.md R35 -/

theorem test_decode_varint : decode (BitVec.ofNat 2 0) = .instr .varint ∧
    decodeTableWord 8 0 = some .varint := by decide
theorem test_decode_pbool : decode (BitVec.ofNat 2 1) = .instr .pbool ∧
    decodeTableWord 8 1 = some .pbool := by decide
theorem test_decode_pbfin : decode (BitVec.ofNat 2 2) = .instr .pbfin ∧
    decodeTableWord 8 2 = some .pbfin := by decide
theorem test_decode_reserved : decode (BitVec.ofNat 2 3) = .rejected .reservedCommand ∧
    decodeTableWord 8 3 = none := by decide

/-- Program P3 of 95_test_vectors.md: its encoding. -/
theorem test_assemble_p3 : assemble [.command .varint, .pbgroup 10, .command .varint] =
    [0, 1, 1, 1, 1, 1, 1, 1, 1, 1, 1, 2, 0] := by decide

/-- A line of program P5 with its comment, and a comment line (30_encoding.md R45). -/
theorem test_parse_reserved_and_comment :
    parseLine ['.', 'c', 'm', 'd', ' ', '0', 'b', '1', '1', ' ', ' ', ';', ' ', '1', '1'] = .line .reserved ∧
    parseLine [';', ' ', 'x'] = .blank := by decide

/-! ## One step of each command -/

/-- V9: a group at bit 35 contributes nothing; a loop that masks the shift count would give 8. -/
theorem test_varint_v9 : seen (exec .varint (built 32 .wrap [0x80, 0x80, 0x80, 0x80, 0x80, 0x01])) =
    some (⟨.ok, 0, false⟩, 6, 0x00, 0) := by decide

/-- V7 under `GUARD`: the fifth byte carries bits above `W`. -/
theorem test_varint_v7_guard : seen (exec .varint (built 32 .guard [0xFF, 0xFF, 0xFF, 0xFF, 0x7F])) =
    some (⟨.varintOverflow, 0, false⟩, 5, 0x00, 0) := by decide

/-- B12 (with the source's answers at an end) and B8: bit 0 comes first, bit 7 last. -/
theorem test_pbool_b12_b8 :
    seen (exec .pbool { packed 0x01 7 [] with answers := [.answer ⟨0b01#2, 0⟩] }) =
      some (⟨.ok, 0, true⟩, 0, 0x00, 6) ∧
    seen (exec .pbool (packed 0x01 1 [])) = some (⟨.ok, 0, true⟩, 0, 0x00, 0) := by decide

/-- B1 and X3: a refill, and the reserved answer kind. -/
theorem test_pbool_b1_x3 :
    seen (exec .pbool (packed 0x00 0 [0xA5])) = some (⟨.ok, 0, true⟩, 1, 0x52, 7) ∧
    seen (exec .pbool { packed 0x00 0 [] with answers := [reservedAnswer] }) =
      some (⟨.ioError, 0, false⟩, 0, 0x00, 0) := by decide

/-- F2: `pb_buffer` is not written. -/
theorem test_pbfin_f2 : seen (exec .pbfin (packed 0x7F 7 [])) = some (⟨.ok, 0, false⟩, 0, 0x7F, 0) := by
  decide

/-- X1: the reserved command. -/
theorem test_reserved_x1 : seen (step { packed 0x03 7 [] with commands := [0b11#2] }) =
    some (⟨.illegalCommand, 0, false⟩, 0, 0x03, 7) := by decide

/-- T2, its reset step: a `VARINT` that waits after two bytes is aborted; the bytes stay taken. -/
theorem test_reset_t2 :
    (after (step { built 32 .wrap [0x01] with
      fsm := .viWait, viK := 2, pos := 2, ticks := [⟨true, true, true⟩] })).map
      (fun s => (s.fsm, s.viK, s.pos, s.received, s.answers)) =
    some (.idle, 0, 2, [], byteAnswers [0x01]) := by decide

/-- The cycle-level trace of 95_test_vectors.md 2.5, edges 0 to 2. -/
def trace25 : List Pins :=
  [⟨false, true, 0b00#2, false, 0, 0, true⟩, ⟨false, false, 0, true, 0b00#2, 0xAC, true⟩,
   ⟨false, false, 0, true, 0b00#2, 0x02, true⟩]

theorem test_trace_2_5 : (cycleRun (trace25.take 2) State.reset).viAcc = 0x2C ∧
    (cycleRun (trace25.take 2) State.reset).viK = 1 ∧
    (cycleRun trace25 State.reset).pending = ⟨.ok, 0x12C, false⟩ := by decide

/-- The defaults of 00_scope.md R5 and R6. -/
theorem test_default_parameters : State.reset.params = ⟨32, .wrap⟩ := by decide

/-! ## Witnesses: the hypotheses of each statement can be met together -/

/-- A `VARINT` under `GUARD` before its last byte, `vi_acc` at its greatest value there. -/
def lastByte : State := { built 32 .guard [] with fsm := .viWait, viAcc := 268435455, viK := 4 }

theorem witness_RegisterEncodings : lastByte.Inv := by decide

theorem witness_DecodeEncodeAgree : decode 0b10#2 = .instr .pbfin := by decide

/-- The default width, and V9's group, the first that contributes nothing. -/
theorem witness_GroupsOccupyTheirBits : Params.standard.width = 32 ∧ maxb Params.standard ≤ 5 ∧
    groupTerm Params.standard 5 0x01 = 0 ∧ groupTerm Params.standard 4 0x7F = 0xF0000000 := by decide

theorem witness_ProgramTextAssembles :
    ∀ l ∈ [AsmLine.command .varint, .pbgroup 1, .pbgroup 10, .reserved], l.wf = true := by decide

theorem witness_StepRunsDecodedCommand :
    (calling [0b01#2] []).fsm = .idle ∧ (calling [0b01#2] []).tick.rst = false ∧
    (calling [0b01#2] []).tick.cmdValid = true ∧ (calling [0b01#2] []).commands = 0b01#2 :: [] ∧
    decode 0b01#2 = .instr .pbool := by decide

theorem witness_PlacedWordRunsNext : decodeTableWord 8 0 = some .varint ∧
    (after (step (State.reset.withFetchWord 8 0))).map (·.fsm) = some .viWait := by decide

theorem witness_ReservedCommandIsIllegal :
    (calling [0b11#2] []).fsm = .idle ∧ (calling [0b11#2] []).tick.rst = false ∧
    (calling [0b11#2] []).tick.cmdValid = true ∧ (calling [0b11#2] []).commands = 0b11#2 :: [] := by decide

theorem witness_BusyBlockAcceptsNothing :
    ({ calling [0b00#2] [] with fsm := .pbWait } : State).fsm ≠ .idle ∧
    (after (step { calling [0b00#2] [] with fsm := .pbWait })).isSome = true := by decide

/-- An ordinary step and a reset step. -/
theorem witness_OneResponsePerCommand :
    (calling [0b10#2] []).tick.rst = false ∧ (after (step (calling [0b10#2] []))).isSome = true ∧
    ({ calling [] [] with fsm := .resp, ticks := [⟨true, true, true⟩] } : State).tick.rst = true ∧
    (after (step { calling [] [] with fsm := .resp, ticks := [⟨true, true, true⟩] })).isSome = true := by
  decide

theorem witness_BytesTakenInStreamOrder :
    (after (step (calling [0b00#2] [0x80, 0x01]))).isSome = true ∧
    ({ calling [] [] with ticks := [⟨true, true, true⟩] } : State).tick.rst = true := by decide

theorem witness_ResponseTakenOrHeld : ({ State.reset with fsm := .resp } : State).fsm = .resp ∧
    (⟨false, true, 0, false, 0, 0, true⟩ : Pins).rst = false ∧
    (⟨false, true, 0, false, 0, 0, false⟩ : Pins).rspReady = false := by decide

theorem witness_StepDeliversResponse :
    ({ State.reset with fsm := .resp } : State).tick.rspReady = true ∧
    ({ State.reset with fsm := .resp, ticks := [⟨false, true, false⟩] } : State).tick.rspReady = false ∧
    ({ State.reset with fsm := .resp, ticks := [⟨false, true, false⟩] } : State).tick.rst = false := by decide

/-- No command left, and a command held back. -/
theorem witness_IdleStepHolds :
    State.reset.fsm = .idle ∧ State.reset.tick.rst = false ∧ State.reset.commands = [] ∧
    ({ calling [1] [] with ticks := [⟨false, false, true⟩] } : State).tick.cmdValid = false ∧
    ({ calling [1] [] with ticks := [⟨false, false, true⟩] } : State).tick.rst = false := by decide

/-- V9, and the shortest VarInt at the narrowest width. -/
theorem witness_VarintWrapValue :
    (built 32 .wrap [0x80, 0x80, 0x80, 0x80, 0x80, 0x01]).params.wf ∧
    isVarInt [0x80, 0x80, 0x80, 0x80, 0x80, 0x01] = true ∧
    (built 7 .wrap [0x7F]).params.wf ∧ isVarInt [0x7F] = true ∧ (built 7 .wrap [0x7F]).fsm = .idle ∧
    (built 7 .wrap [0x7F]).answers = byteAnswers [0x7F] ++ [] := by decide

/-- V8 (a group bit too high), V21 (a continuation at byte `MAXB`), `W = 7`, where `MAXB = 1`, and V5 (the
largest value that fits). -/
theorem witness_VarintGuardRule :
    (built 32 .guard [0xFF, 0xFF, 0xFF, 0xFF, 0x10]).params.wf ∧
    unfinished [0xFF, 0xFF, 0xFF, 0xFF] = true ∧ maxb ⟨32, .guard⟩ = 5 ∧
    (group 0x10).toNat / 2 ^ (32 - 7 * (maxb ⟨32, .guard⟩ - 1)) ≠ 0 ∧
    unfinished [0xFF, 0xFF, 0xFF] = true ∧ maxb ⟨28, .guard⟩ = 4 ∧ continues 0xFF = true ∧
    maxb ⟨7, .guard⟩ = 1 ∧
    isVarInt [0xFF, 0xFF, 0xFF, 0xFF, 0x0F] = true ∧ spelled [0xFF, 0xFF, 0xFF, 0xFF, 0x0F] < 2 ^ 32 ∧
    (after (exec .varint (built 32 .guard [0xFF, 0xFF, 0xFF, 0xFF, 0x0F]))).map (·.fsm) = some .resp := by
  decide

theorem witness_VarintAgreesWithRecursion :
    (built 8 .wrap [0xFF, 0x02]).params.wf ∧ (built 8 .wrap [0xFF, 0x02]).params.policy = .wrap ∧
    (built 8 .wrap [0xFF, 0x02]).fsm = .idle ∧ isVarInt [0xFF, 0x02] = true ∧
    (built 8 .wrap [0xFF, 0x02]).answers = byteAnswers [0xFF, 0x02] ++ [] := by decide

/-- S4, and the least value. -/
theorem witness_VarintRoundTrip : shortest 16384 = [0x80, 0x80, 0x01] ∧ shortest 0 = [0x00] ∧
    (16384 : Nat) < 2 ^ 32 ∧ (built 32 .guard (shortest 16384)).params.wf ∧
    (built 32 .guard (shortest 16384)).answers = byteAnswers (shortest 16384) ++ [] := by decide

/-- A `VARINT` that ends with each of the four statuses. -/
theorem witness_VarintBytesTaken :
    (seen (exec .varint (built 32 .wrap [0xAC, 0x02]))).map (·.1.status) = some .ok ∧
    (seen (exec .varint { built 32 .wrap [] with
      answers := byteAnswers [0x80] ++ [.answer ⟨0b01#2, 0⟩] })).map (·.1.status) = some .streamExhausted ∧
    (seen (exec .varint { built 32 .wrap [] with answers := [reservedAnswer] })).map (·.1.status) =
      some .ioError ∧
    (seen (exec .varint (built 7 .guard [0x80]))).map (·.1.status) = some .varintOverflow := by decide

theorem witness_VarintLeavesPackedState :
    (after (exec .varint (packed 0x15 5 [0x05]))).isSome = true := by decide

/-- No answer at all, a delay after continuation bytes, and the longest run `GUARD` allows. -/
theorem witness_VarintWaitsWithoutAnswer :
    unfinished [] = true ∧ withheld [] = true ∧ withheld [.withhold] = true ∧
    unfinished [0x80, 0x80, 0x80, 0x80] = true ∧
    [0x80, 0x80, 0x80, (0x80 : Byte)].length < maxb ⟨32, .guard⟩ ∧
    (built 32 .guard [0x80, 0x80, 0x80, 0x80]).answers = byteAnswers [0x80, 0x80, 0x80, 0x80] ++ [] := by
  decide

/-- A `VARINT` between whose two bytes the source delays, at a written-down tick. -/
def delayed : State :=
  { built 32 .wrap [] with
    answers := byteAnswers [0x80] ++ .withhold :: byteAnswers [0x01], ticks := [⟨false, true, false⟩] }

theorem witness_VarintDelayIsTransparent :
    delayed.fsm = .idle ∧ delayed.tick.rst = false ∧ .withhold ∉ byteAnswers [0x80] ∧
    (after (exec .varint delayed)).map (·.fsm) = some .viWait ∧
    ({ built 32 .wrap [] with fsm := .viWait } : State).answers = [] := by decide

theorem continues_ff : continues 0xFF = true := by decide

theorem witness_UnbrokenRunHangs : ∃ pins : Nat → Pins, ∃ s : State, s.params.wf ∧ s.fsm = .viWait ∧
    s.params.policy = .guard ∧ s.viK = 0 ∧ (∀ n, (pins n).rst = false) ∧
    ∀ n, (pins n).srcValid = true ∧ (pins n).srcKind = 0b00#2 ∧ continues (pins n).srcData = true :=
  ⟨fun _ => ⟨false, false, 0, true, 0b00#2, 0xFF, true⟩, { built 32 .guard [] with fsm := .viWait },
    by decide, rfl, rfl, rfl, fun _ => rfl, fun _ => ⟨rfl, rfl, continues_ff⟩⟩

theorem witness_UnbrokenRunHangs_wrap : ∃ pins : Nat → Pins, ∃ s : State, s.params.wf ∧ s.fsm = .viWait ∧
    s.params.policy = .wrap ∧ (∀ n, (pins n).rst = false) ∧
    ∀ n, (pins n).srcValid = true → (pins n).srcKind = 0b00#2 ∧ continues (pins n).srcData = true :=
  ⟨fun _ => ⟨false, false, 0, true, 0b00#2, 0xFF, true⟩, { built 32 .wrap [] with fsm := .viWait },
    by decide, rfl, rfl, fun _ => rfl, fun _ _ => ⟨rfl, continues_ff⟩⟩

/-- An unread bit left, and an empty buffer before each kind of answer. -/
theorem witness_PboolRule :
    (packed 0x01 1 []).fsm = .idle ∧ (packed 0x01 1 []).pbRem ≠ 0 ∧ (packed 0x00 0 [0xA5]).pbRem = 0 ∧
    (packed 0x00 0 [0xA5]).answers = .answer ⟨0b00#2, 0xA5⟩ :: [] ∧
    ({ packed 0x00 0 [] with answers := [.answer ⟨0b01#2, 0⟩] } : State).fsm = .idle ∧
    ({ packed 0x00 0 [] with answers := [.answer ⟨0b10#2, 0⟩] } : State).fsm = .idle ∧
    ({ packed 0x00 0 [] with answers := [reservedAnswer] } : State).pbRem = 0 := by decide

theorem witness_PboolDelayIsTransparent :
    (packed 0x00 0 []).fsm = .idle ∧ (packed 0x00 0 []).pbRem = 0 ∧ (packed 0x00 0 []).answers = [] ∧
    (packed 0x00 0 []).tick.rst = false ∧
    ({ packed 0x00 0 [] with answers := [.withhold], ticks := [⟨false, false, false⟩] } : State).answers =
      .withhold :: [] ∧
    ({ packed 0x00 0 [] with ticks := [⟨false, false, false⟩] } : State).tick.rst = false := by decide

theorem witness_PbfinRule : (packed 0x7F 7 []).fsm = .idle := by decide

theorem witness_PbfinForcesRefill :
    (calling [2, 1] [0x02]).fsm = .idle ∧ (calling [2, 1] [0x02]).ticks = [] ∧
    (calling [2, 1] [0x02]).commands = List.replicate 1 (encode .pbfin) ++ encode .pbool :: [] ∧
    (calling [2, 1] [0x02]).answers = byteAnswers [0x02] ++ [] := by decide

/-- Eight booleans of one byte with a `VARINT` and the reserved command among them, `j` at its bound, the
byte delayed once and the caller idle at the first step. -/
def wholeByte : State :=
  { calling [1, 0, 3, 1, 1, 1, 1, 1, 1, 1] [] with
    answers := .withhold :: byteAnswers [0xA5, 0x05], ticks := [⟨false, false, true⟩] }

theorem witness_PackedBitOrder :
    wholeByte.fsm = .idle ∧ (∀ x ∈ wholeByte.ticks, x.rst = false) ∧ wholeByte.pbRem = 0 ∧
    wholeByte.answers = List.replicate 1 .withhold ++ (byteAnswers [0xA5] ++ byteAnswers [0x05]) ∧
    wholeByte.commands = encode .pbool :: [0, 3, 1, 1, 1, 1, 1, 1, 1] ∧
    (∀ c ∈ [0, 3, 1, 1, 1, 1, 1, 1, (1 : CmdWord)], c ≠ encode .pbfin) ∧
    [0, 3, 1, 1, 1, 1, 1, 1, (1 : CmdWord)].count (encode .pbool) = 7 ∧
    (after (Host.Core.run Sys2Proof.core 22 wholeByte)).map (fun t => (t.fsm, t.commands)) =
      some (.idle, []) := by
  decide

/-- The smallest group, and one that needs a second byte for its ninth boolean. -/
theorem witness_PackedGroupDecodes :
    groupBytes 1 = 1 ∧ groupBytes 8 = 1 ∧ groupBytes 9 = 2 ∧
    (calling (AsmLine.pbgroup 9).words [0x05, 0x02]).fsm = .idle ∧
    (calling (AsmLine.pbgroup 9).words [0x05, 0x02]).ticks = [] ∧
    (calling (AsmLine.pbgroup 9).words [0x05, 0x02]).pbRem = 0 ∧
    (calling (AsmLine.pbgroup 9).words [0x05, 0x02]).commands = (AsmLine.pbgroup 9).words ++ [] ∧
    (calling (AsmLine.pbgroup 9).words [0x05, 0x02]).answers = byteAnswers [0x05, 0x02] ++ [] := by decide

/-- Program P4 of 95_test_vectors.md, its first three commands. -/
theorem witness_VarintInsideGroup :
    (calling [1, 0, 1, 2, 1] [0x03, 0x05, 0x80]).params.wf ∧ continues 0x05 = false ∧
    (calling [1, 0, 1, 2, 1] [0x03, 0x05, 0x80]).commands =
      [encode .pbool, encode .varint, encode .pbool] ++ [2, 1] ∧
    (calling [1, 0, 1, 2, 1] [0x03, 0x05, 0x80]).answers = byteAnswers [0x03, 0x05] ++ byteAnswers [0x80] := by
  decide

/-- V13, V14 and B10. -/
theorem witness_EndOfStreamStatus :
    unfinished [0x80] = true ∧ [(0x80 : Byte)].length < maxb ⟨32, .guard⟩ ∧
    ({ built 32 .guard [] with answers := byteAnswers [0x80] ++ [.answer ⟨0b01#2, 0⟩] } : State).params.wf ∧
    ({ packed 0x00 0 [] with answers := [.answer ⟨0b01#2, 0⟩] } : State).pbRem = 0 ∧
    (packed 0x01 7 []).pbRem ≠ 0 := by decide

/-- V15, V16, X2 and B11. -/
theorem witness_IoErrorStatus :
    ({ built 32 .wrap [] with answers := byteAnswers [0xFF] ++ [.answer ⟨0b10#2, 0⟩] } : State).params.wf ∧
    unfinished [0xFF] = true ∧ unfinished [] = true ∧
    ({ packed 0x00 0 [] with answers := [.answer ⟨0b10#2, 0⟩] } : State).pbRem = 0 := by decide

theorem witness_ReservedKindActsAsIoErr :
    (seen (step { calling [0b00#2] [] with answers := [reservedAnswer] })).map (·.1.status) =
      some .ioError := by decide

theorem witness_ErrorLeavesPackedState :
    (seen (step { calling [0b01#2] [] with answers := [.answer ⟨0b01#2, 0⟩] })).map (·.1.status) =
      some .streamExhausted ∧
    (calling [0b01#2] []).fsm ≠ .resp := by decide

theorem witness_ResetEdgeLoadsValues : (⟨true, true, 0, true, 0, 0xFF, true⟩ : Pins).rst = true := by decide

theorem witness_ResetStepLoadsValues :
    ({ packed 0x03 7 [] with ticks := [⟨true, true, true⟩] } : State).tick.rst = true := by decide

/-- One set of pins for each row of 42_control_fsm.md R63. -/
theorem witness_IdleEdgeRows :
    (packed 0x00 0 []).fsm = .idle ∧ (packed 0x00 0 []).pbRem = 0 ∧ (packed 0x01 1 []).pbRem ≠ 0 ∧
    (⟨false, false, 0, false, 0, 0, false⟩ : Pins).cmdValid = false ∧
    ∀ op : CmdWord, (⟨false, true, op, false, 0, 0, false⟩ : Pins).cmdValid = true ∧
      (⟨false, true, op, false, 0, 0, false⟩ : Pins).cmdOp = op := by decide

/-- `GUARD` at index `MAXB - 1`, at the value limit on both sides (V5, V8), and before it. -/
theorem witness_VarintEdgeRows :
    let s : State := { built 32 .guard [] with fsm := .viWait, viK := 4 }
    s.fsm = .viWait ∧ s.viK = maxb s.params - 1 ∧
    (0x10 : Byte).toNat % 128 / 2 ^ (s.params.width - 7 * (maxb s.params - 1)) ≠ 0 ∧
    (0x0F : Byte).toNat % 128 / 2 ^ (s.params.width - 7 * (maxb s.params - 1)) = 0 ∧
    (0x0F : Byte).toNat < 128 ∧
    ({ s with viK := 3 } : State).viK ≠ maxb s.params - 1 ∧ 128 ≤ (0x80 : Byte).toNat := by decide

theorem witness_RefillEdgeRows : ({ packed 0x00 0 [] with fsm := .pbWait } : State).fsm = .pbWait ∧
    (⟨false, false, 0, true, 0b11#2, 0, false⟩ : Pins).srcValid = true := by decide

/-- A state in the middle of a `VARINT`, with booleans unread. -/
theorem witness_StepKeepsInvariant :
    ({ packed 0x05 3 [0x01] with fsm := .viWait, viAcc := 100, viK := 1 } : State).Inv ∧
    (after (step { packed 0x05 3 [0x01] with fsm := .viWait, viAcc := 100, viK := 1 })).isSome = true := by
  decide

theorem witness_ClockEdgeKeepsInvariant : ({ packed 0x00 0 [] with fsm := .pbWait } : State).Inv := by decide

/-- A stale buffer and stale working registers (F4 of 95_test_vectors.md). -/
theorem witness_HiddenStateIsUnobservable :
    sameSeen (packed 0x7F 0 [0x02]) { packed 0x00 0 [0x02] with viAcc := 9, viK := 3, rspValue := 7 } ∧
    (after (step (packed 0x7F 0 [0x02]))).isSome = true := by
  unfold sameSeen sameOutside samePacked; decide

/-- The trace of 95_test_vectors.md 2.5, edges 0 to 3. -/
theorem witness_CycleLevelRefinesTransactions :
    let ps := trace25 ++ [⟨false, false, 0, false, 0, 0, true⟩]
    State.reset.fsm = .idle ∧ (∀ p ∈ ps, p.rst = false) ∧ (cycleRun ps State.reset).fsm = .idle ∧
    accepted ps State.reset = [0] ∧ transferred ps State.reset = byteAnswers [0xAC, 0x02] := by decide

theorem witness_CycleLevelVarintValue :
    let ps := trace25.map fun p => { p with rspReady := false }
    State.reset.params.wf ∧ State.reset.params.policy = .wrap ∧
    (∀ p ∈ ps, p.rst = false ∧ p.rspReady = false) ∧ accepted ps State.reset = [encode .varint] ∧
    isVarInt [0xAC, 0x02] = true ∧ transferred ps State.reset = byteAnswers [0xAC, 0x02] := by decide

end Sys2Proof.Tests
end

section
/-! Which result bits a group occupies (00_scope.md R7). -/

namespace Sys2Proof.Machine

/-- `MAXB = ceil(W / 7)` as a Galois connection: what "least `n` with `7n >= W`" needs, and what turns
`k >= MAXB` into `7k >= W`. -/
theorem maxb_le_iff {p : Params} {n : Nat} : maxb p ≤ n ↔ p.width ≤ 7 * n := by
  unfold maxb; omega

@[simp] theorem truncW_testBit (p : Params) (v j : Nat) :
    (truncW p v).testBit j = (decide (j < p.width) && v.testBit j) := Nat.testBit_mod_two_pow v p.width j

@[simp] theorem group_testBit (b : Byte) (i : Nat) :
    (group b).toNat.testBit i = (decide (i < 7) && b.getLsbD i) := by
  rw [BitVec.testBit_toNat, group, BitVec.getLsbD_extractLsb', Nat.zero_add]

/-- The window of R7: truncation bounds the bit by `W`, the shift by `7k` from below, the group's seven bits
by `7k + 6` from above. -/
theorem groupTerm_testBit (p : Params) (k : Nat) (b : Byte) (j : Nat) :
    (groupTerm p k b).testBit j =
      (decide (j < p.width) && decide (7 * k ≤ j) && decide (j ≤ 7 * k + 6) && b.getLsbD (j - 7 * k)) := by
  rw [groupTerm, truncW_testBit, Nat.testBit_mul_two_pow, group_testBit]
  by_cases hk : 7 * k ≤ j
  · have hwindow : j - 7 * k < 7 ↔ j ≤ 7 * k + 6 := by omega
    simp [hk, hwindow, Bool.and_assoc]
  · simp [hk]

/-- Settles O7, from the bit window of a group's term and `maxb_le_iff`. -/
theorem groupsOccupyTheirBits : Obligations.GroupsOccupyTheirBits := by
  refine ⟨fun p => ⟨width_le_seven_maxb p, fun n => maxb_le_iff.mpr⟩, fun p hw => ?_, fun p k b => ⟨?_, ?_⟩⟩
  · rw [maxb, hw]
  · exact groupTerm_testBit p k b
  · exact fun hk => groupTerm_eq_zero (maxb_le_iff.mp hk) b

end Sys2Proof.Machine
end

section
/-! The invariant of the block (10_state.md R13 to R15; 30_encoding.md R39): how a state comes to have it in
each FSM state, and that both levels of the machine keep it. -/

namespace Sys2Proof.Machine

/-- The part of the invariant that no FSM state qualifies: every register is within its width. -/
structure State.Bounded (s : State) : Prop where
  wf : s.params.wf
  pbRem_le : s.pbRem.val ≤ 7
  pbBuffer_lt : 0 < s.pbRem.val → s.pbBuffer.toNat < 2 ^ s.pbRem.val
  viAcc_lt : s.viAcc < 2 ^ s.params.width
  viK_le : s.viK ≤ maxb s.params
  rspValue_lt : s.rspValue < 2 ^ s.params.width

/-! ### What the invariant says in each FSM state -/

theorem bounded_of_inv {s : State} (h : s.Inv) : s.Bounded := by
  obtain ⟨hwf, ⟨hrem, hbuf, -⟩, ⟨hacc, hk, -⟩, hval, -⟩ := h
  exact ⟨hwf, hrem, hbuf, hacc, hk, hval⟩

/-- While a `VARINT` runs, `vi_acc` holds lower groups only, and `GUARD` has a byte left (40_varint.md R47,
R51). -/
theorem running_of_inv {s : State} (h : s.Inv) (hf : s.fsm = .viWait) :
    s.viAcc < 2 ^ (7 * s.viK) ∧ (s.params.policy = .guard → s.viK < maxb s.params) := by
  obtain ⟨-, -, ⟨-, -, hrun⟩, -⟩ := h
  exact hrun hf

theorem inv_of_idle {s : State} (h : s.Bounded) (hf : s.fsm = .idle) : s.Inv :=
  ⟨h.wf, ⟨h.pbRem_le, h.pbBuffer_lt, by simp [hf]⟩, ⟨h.viAcc_lt, h.viK_le, by simp [hf]⟩,
    h.rspValue_lt, by simp [hf]⟩

theorem inv_of_viWait {s : State} (h : s.Bounded) (hf : s.fsm = .viWait)
    (hacc : s.viAcc < 2 ^ (7 * s.viK)) (hguard : s.params.policy = .guard → s.viK < maxb s.params) :
    s.Inv :=
  ⟨h.wf, ⟨h.pbRem_le, h.pbBuffer_lt, by simp [hf]⟩, ⟨h.viAcc_lt, h.viK_le, fun _ => ⟨hacc, hguard⟩⟩,
    h.rspValue_lt, by simp [hf]⟩

theorem inv_of_pbWait {s : State} (h : s.Bounded) (hf : s.fsm = .pbWait) (hrem : s.pbRem = 0) : s.Inv :=
  ⟨h.wf, ⟨h.pbRem_le, h.pbBuffer_lt, fun _ => hrem⟩, ⟨h.viAcc_lt, h.viK_le, by simp [hf]⟩,
    h.rspValue_lt, by simp [hf]⟩

/-- A response with the field contents of 30_encoding.md R39 and 60_exceptions.md R71 may be pending. -/
theorem inv_respond {s : State} {st : Status} {v : Nat} {b : Bool} (h : s.Bounded)
    (hv : v < 2 ^ s.params.width) (herr : st ≠ .ok → v = 0 ∧ b = false) (hb : b = true → v = 0)
    (hovf : st = .varintOverflow → s.params.policy = .guard) : (s.respond st v b).Inv :=
  ⟨h.wf, ⟨h.pbRem_le, h.pbBuffer_lt, by simp⟩, ⟨h.viAcc_lt, h.viK_le, by simp⟩, hv,
    fun _ => ⟨herr, hb, hovf⟩⟩

theorem inv_respond_ok {s : State} {v : Nat} {b : Bool} (h : s.Bounded) (hv : v < 2 ^ s.params.width)
    (hb : b = true → v = 0) : (s.respond .ok v b).Inv :=
  inv_respond h hv (by simp) hb (by simp)

theorem inv_raise {s : State} {e : Status} (h : s.Bounded)
    (hovf : e = .varintOverflow → s.params.policy = .guard) : (s.raise e).Inv :=
  inv_respond h (Nat.two_pow_pos _) (by simp) (by simp) hovf

/-! ### Reset and the taking of a response -/

theorem inv_resetBlock {s : State} (h : s.params.wf) : s.resetBlock.Inv :=
  inv_of_idle
    { wf := h, pbRem_le := by simp, pbBuffer_lt := by simp, viAcc_lt := Nat.two_pow_pos _,
      viK_le := Nat.zero_le _, rspValue_lt := Nat.two_pow_pos _ } rfl

theorem inv_takeResponse {s : State} (h : s.Bounded) : s.takeResponse.Inv :=
  inv_of_idle { h with } rfl

/-! ### `PBOOL` and `PBFIN` -/

/-- A bit read from a buffer of `r` bits leaves one of `r - 1`: the read of an unread bit, and with `r = 8`
the read after a refill (41_packed_boolean.md R55, R56). -/
theorem inv_pboolRead {s : State} {buf : Byte} {r : Fin 9} (h : s.Bounded) (hbuf : buf.toNat < 2 ^ r.val) :
    (pboolRead { s with pbBuffer := buf, pbRem := r }).Inv := by
  have hread : State.Bounded { s with pbBuffer := dropBit buf, pbRem := decRem r } :=
    { h with
      pbRem_le := by rw [decRem_val]; omega
      pbBuffer_lt := fun hr => dropBit_lt hbuf (by rw [decRem_val] at hr; omega) }
  exact inv_respond_ok hread (Nat.two_pow_pos _) (fun _ => rfl)

theorem inv_pboolRead_unread {s : State} (h : s.Bounded) (hr : s.pbRem ≠ 0) : (pboolRead s).Inv :=
  inv_pboolRead h (h.pbBuffer_lt (by omega))

theorem inv_pboolRead_load {s : State} (h : s.Bounded) (d : Byte) : (pboolRead (pboolLoad d s)).Inv :=
  inv_pboolRead (r := 8) h d.isLt

theorem inv_pbfin {s : State} (h : s.Bounded) : ({ s with pbRem := 0 }.respond .ok 0 false).Inv :=
  inv_respond_ok { h with pbRem_le := by simp, pbBuffer_lt := by simp } (Nat.two_pow_pos _) (by simp)

/-- A failed fetch is no overflow. -/
theorem ne_varintOverflow_of_failed {a : Answer} {e : Status}
    (he : (fetched a = .eos ∧ e = .streamExhausted) ∨ (fetched a = .ioErr ∧ e = .ioError)) :
    e ≠ .varintOverflow := by
  rcases he with ⟨-, rfl⟩ | ⟨-, rfl⟩ <;> decide

theorem inv_pboolRefill {s : State} (h : s.Inv) : (pboolRefill s).Inv := by
  have hb := bounded_of_inv h
  rcases pboolRefill_cases s with ⟨-, ht⟩ | ⟨a, rest, e, -, he, ht⟩ | ⟨d, rest, -, ht⟩ <;> rw [ht]
  · exact h
  · exact inv_raise { hb with } fun hovf => absurd hovf (ne_varintOverflow_of_failed he)
  · exact inv_pboolRead_load hb d

/-! ### `VARINT` -/

theorem inv_varintStart {s : State} (h : s.Bounded) : (varintStart s).Inv :=
  inv_of_viWait { h with viAcc_lt := Nat.two_pow_pos _, viK_le := Nat.zero_le _ } rfl
    (Nat.two_pow_pos _) fun _ => maxb_pos h.wf

/-- A merge keeps `vi_acc` below the next group index, saturated or not (40_varint.md R47). -/
theorem or_groupTerm_lt_nextIndex {p : Params} {k acc : Nat} (hacc : acc < 2 ^ (7 * k)) (hk : k ≤ maxb p)
    (b : Byte) : acc ||| groupTerm p k b < 2 ^ (7 * nextIndex p k) := by
  rcases Nat.lt_or_ge k (maxb p) with hlt | hge
  · rw [nextIndex, Nat.min_eq_left hlt]
    exact or_groupTerm_lt hacc b
  · have hlast : nextIndex p k = k := by unfold nextIndex; omega
    rw [hlast, groupTerm_eq_zero (maxb_le_iff.mp hge), Nat.or_zero]
    exact hacc

/-- A continuation byte leaves a running `VARINT` that has the invariant: a continuing byte that does not
trip `GUARD` is not the last one it allows. -/
theorem inv_varint_more {s : State} {b : Byte} (h : s.Inv) (hf : s.fsm = .viWait)
    (ht : guardTrips s.params s.viK b = false) (hc : continues b = true) :
    (varintAdvance (varintMerge b s)).Inv := by
  have hb := bounded_of_inv h
  obtain ⟨hacc, hguard⟩ := running_of_inv h hf
  refine inv_of_viWait
    { hb with viAcc_lt := or_groupTerm_lt_width hb.viAcc_lt b, viK_le := nextIndex_le _ _ } hf
    (or_groupTerm_lt_nextIndex hacc hb.viK_le b) fun hg => ?_
  exact (Nat.min_le_left _ _).trans_lt (not_trips_continues ht hc hg (hguard hg))

theorem inv_varint_last {s : State} (h : s.Bounded) (b : Byte) :
    ((varintMerge b s).respond .ok (varintMerge b s).viAcc false).Inv :=
  have hacc := or_groupTerm_lt_width h.viAcc_lt b
  inv_respond_ok { h with viAcc_lt := hacc } hacc (by simp)

/-- The loop of a running `VARINT` keeps the invariant, however many bytes it takes. -/
theorem inv_varintLoop {s : State} (h : s.Inv) (hf : s.fsm = .viWait) :
    (varintLoop s.answers s).Inv := by
  refine varintLoop_induction (fun s t => s.Inv → s.fsm = .viWait → t.Inv) ?waiting ?failed ?trips ?last
    ?more s h hf
  case waiting => exact fun s _ h _ => h
  case failed =>
    exact fun s a rest e _ he h _ => inv_raise { bounded_of_inv h with }
      fun hovf => absurd hovf (ne_varintOverflow_of_failed he)
  case trips =>
    exact fun s b rest _ ht h _ => inv_raise { bounded_of_inv h with } fun _ => policy_of_trips ht
  case last => exact fun s b rest _ _ _ h _ => inv_varint_last (bounded_of_inv h) b
  case more => exact fun s b rest t _ ht hc ih h hf => ih (inv_varint_more h hf ht hc) hf

/-! ### The step -/

/-- Whatever word an idle block accepts, its command keeps the invariant. -/
theorem runCommand_keeps_inv {op : CmdWord} {s t : State} (h : s.Inv) (hf : s.fsm = .idle)
    (ht : runCommand op s = .next t) : t.Inv := by
  have hb := bounded_of_inv h
  rcases runCommand_cases op hf with ⟨-, hs⟩ | ⟨-, hr, hs⟩ | ⟨-, hr, hs⟩ | ⟨-, hs⟩ | ⟨-, hs⟩ <;>
    (rw [hs] at ht; cases ht)
  · exact inv_varintLoop (s := varintStart s) (inv_varintStart hb) rfl
  · exact inv_pboolRead_unread hb hr
  · exact inv_pboolRefill (inv_of_pbWait { hb with } rfl hr)
  · exact inv_pbfin hb
  · exact inv_raise hb (by simp)

/-- Settles O46, by the six things a step can do. -/
theorem stepKeepsInvariant : Obligations.StepKeepsInvariant := by
  intro s t h ht
  rcases step_cases s with ⟨-, hs⟩ | ⟨op, rest, -, hf, -, -, hs⟩ | ⟨-, hf, hs⟩ | ⟨-, -, hs⟩ |
    ⟨-, -, -, hs⟩ | ⟨-, -, hs⟩
  · cases hs.symm.trans ht
    exact inv_resetBlock (bounded_of_inv h).wf
  · exact runCommand_keeps_inv (s := { s.popTick with commands := rest }) h hf (hs.symm.trans ht)
  · cases hs.symm.trans ht
    exact inv_varintLoop (s := s.popTick) h hf
  · cases hs.symm.trans ht
    exact inv_pboolRefill (s := s.popTick) h
  · cases hs.symm.trans ht
    exact inv_takeResponse (s := s.popTick) { bounded_of_inv h with }
  · cases hs.symm.trans ht
    exact h

/-! ### The clock edge -/

theorem inv_edgeIdle (p : Pins) {s : State} (h : s.Inv) : (edgeIdle p s).Inv := by
  have hb := bounded_of_inv h
  unfold edgeIdle
  split_ifs with _ _ _ hr
  · exact inv_varintStart hb
  · exact inv_of_pbWait { hb with } rfl hr
  · exact inv_pboolRead_unread hb hr
  · exact inv_pbfin hb
  · exact inv_raise (e := .illegalCommand) hb (by simp)
  · exact h

theorem inv_edgeViWait (p : Pins) {s : State} (h : s.Inv) (hf : s.fsm = .viWait) :
    (edgeViWait p s).Inv := by
  have hb := bounded_of_inv h
  unfold edgeViWait
  split
  · split
    · exact inv_raise (e := .streamExhausted) hb (by simp)
    · exact inv_raise (e := .ioError) hb (by simp)
    · next b _ =>
      split_ifs with ht hc
      · exact inv_raise (e := .varintOverflow) { hb with } fun _ => policy_of_trips ht
      · exact inv_varint_more h hf (Bool.not_eq_true _ ▸ ht) hc
      · exact inv_respond_ok { hb with } (or_groupTerm_lt_width hb.viAcc_lt b) (by simp)
  · exact h

theorem inv_edgePbWait (p : Pins) {s : State} (h : s.Inv) : (edgePbWait p s).Inv := by
  have hb := bounded_of_inv h
  unfold edgePbWait
  split
  · split
    · exact inv_raise (e := .streamExhausted) hb (by simp)
    · exact inv_raise (e := .ioError) hb (by simp)
    · exact inv_pboolRead_load hb _
  · exact h

theorem inv_edgeResp (p : Pins) {s : State} (h : s.Inv) : (edgeResp p s).Inv := by
  unfold edgeResp
  split
  · exact inv_takeResponse (bounded_of_inv h)
  · exact h

/-- Settles O47, by reset and the four FSM states. -/
theorem clockEdgeKeepsInvariant : Obligations.ClockEdgeKeepsInvariant := by
  intro p s h
  unfold clockEdge
  split
  · exact inv_resetBlock (bounded_of_inv h).wf
  · split
    · exact inv_edgeIdle p h
    · next hf => exact inv_edgeViWait p h hf
    · exact inv_edgePbWait p h
    · exact inv_edgeResp p h

/-- Settles O45: the reset state is a block that has been reset, at the default width. -/
theorem resetMeetsInvariant : Obligations.ResetMeetsInvariant :=
  inv_resetBlock (s := State.reset) (by decide)

/-! ### The register encodings -/

theorem remBits_toNat (r : Fin 9) : (remBits r).toNat = r.val := by
  rw [remBits, BitVec.toNat_ofNat]
  omega

/-- `MAXB` needs all the bits of `vi_k` (10_state.md R15). -/
theorem maxb_lt_two_pow_viKWidth (p : Params) : maxb p < 2 ^ viKWidth p := Nat.lt_log2_self

theorem two_pow_viKWidth_sub_one_le {p : Params} (h : p.wf) : 2 ^ (viKWidth p - 1) ≤ maxb p :=
  Nat.log2_self_le (maxb_pos h).ne'

/-- Settles O4, from the bounds of the invariant. -/
theorem registerEncodings : Obligations.RegisterEncodings := by
  refine ⟨remBits_toNat, rfl, rfl, rfl, rfl, fun s h => ?_⟩
  have hb := bounded_of_inv h
  exact ⟨hb.viK_le.trans_lt (maxb_lt_two_pow_viKWidth _), two_pow_viKWidth_sub_one_le hb.wf, hb.viAcc_lt,
    hb.rspValue_lt⟩

end Sys2Proof.Machine
end

section
/-! What no later response depends on (10_state.md R10, R14, R15): states that agree on everything else step
alike. -/

namespace Sys2Proof.Machine

/-! ### One equation per outcome of a refill, and the step that does nothing -/

theorem pboolRefill_withheld {s : State} (h : withheld s.answers = true) :
    pboolRefill s = { s with answers := s.answers.tail } := by
  rcases pboolRefill_cases s with ⟨-, hs⟩ | ⟨a, rest, e, ha, -, -⟩ | ⟨d, rest, ha, -⟩
  · exact hs
  · simp [ha, withheld] at h
  · simp [ha, withheld] at h

theorem pboolRefill_failed {s : State} {a : Answer} {rest : List SrcEvent} {e : Status}
    (h : s.answers = .answer a :: rest)
    (he : (fetched a = .eos ∧ e = .streamExhausted) ∨ (fetched a = .ioErr ∧ e = .ioError)) :
    pboolRefill s = { s with answers := rest }.raise e := by
  rcases he with ⟨ha, rfl⟩ | ⟨ha, rfl⟩
  · rw [pboolRefill, fetchByte_eos h ha]
  · rw [pboolRefill, fetchByte_ioErr h ha]

theorem pboolRefill_byte {s : State} {d : Byte} {rest : List SrcEvent}
    (h : s.answers = .answer ⟨0b00#2, d⟩ :: rest) :
    pboolRefill s = pboolRead (pboolLoad d { s with answers := rest, pos := s.pos + 1 }) := by
  rw [pboolRefill, fetchByte_byte h]

theorem step_hold {s : State} (hr : s.tick.rst = false)
    (h : (s.fsm = .idle ∧ (s.commands = [] ∨ s.tick.cmdValid = false)) ∨
      (s.fsm = .resp ∧ s.tick.rspReady = false)) : step s = .next s.popTick := by
  rcases h with ⟨hf, hc | hv⟩ | ⟨hf, hv⟩
  · simp [step, State.event, hr, hf, hc]
  · cases hc : s.commands <;> simp [step, State.event, hr, hf, hv, hc]
  · simp [step, State.event, hr, hf, hv]

/-! ### How two states come to agree -/

theorem sameOutside.tick_eq {s s' : State} (h : sameOutside s s') : s'.tick = s.tick := by
  obtain ⟨-, -, -, -, -, -, hticks⟩ := h
  rw [State.tick, State.tick, hticks]

/-- The same tick used up on both sides. -/
theorem sameSeen.popTick {s s' : State} (h : sameSeen s s') : sameSeen s.popTick s'.popTick := by
  obtain ⟨⟨hparams, hfsm, hpos, hanswers, hcommands, hreceived, hticks⟩, hregs⟩ := h
  exact ⟨⟨hparams, hfsm, hpos, hanswers, hcommands, hreceived, congrArg List.tail hticks⟩, hregs⟩

/-- The source's further events are the same on both sides. -/
theorem sameSeen.withAnswers {s s' : State} (h : sameSeen s s') (es : List SrcEvent) :
    sameSeen { s with answers := es } { s' with answers := es } := by
  obtain ⟨⟨hparams, hfsm, hpos, -, hcommands, hreceived, hticks⟩, hregs⟩ := h
  exact ⟨⟨hparams, hfsm, hpos, rfl, hcommands, hreceived, hticks⟩, hregs⟩

/-- A byte taken on both sides. -/
theorem sameSeen.takeByte {s s' : State} (h : sameSeen s s') (es : List SrcEvent) :
    sameSeen { s with answers := es, pos := s.pos + 1 } { s' with answers := es, pos := s'.pos + 1 } := by
  obtain ⟨⟨hparams, hfsm, hpos, -, hcommands, hreceived, hticks⟩, hregs⟩ := h
  exact ⟨⟨hparams, hfsm, congrArg (· + 1) hpos, rfl, hcommands, hreceived, hticks⟩, hregs⟩

/-- The caller's further words are the same on both sides. -/
theorem sameSeen.withCommands {s s' : State} (h : sameSeen s s') (cs : List CmdWord) :
    sameSeen { s with commands := cs } { s' with commands := cs } := by
  obtain ⟨⟨hparams, hfsm, hpos, hanswers, -, hreceived, hticks⟩, hregs⟩ := h
  exact ⟨⟨hparams, hfsm, hpos, hanswers, rfl, hreceived, hticks⟩, hregs⟩

/-- The same response makes both response registers the same, whatever they held. -/
theorem sameSeen.respond {s s' : State} (h : sameSeen s s') (st : Status) (v : Nat) (b : Bool) :
    sameSeen (s.respond st v b) (s'.respond st v b) := by
  obtain ⟨⟨hparams, -, houtside⟩, hpacked, -, -⟩ := h
  exact ⟨⟨hparams, rfl, houtside⟩, hpacked, by simp, fun _ => rfl⟩

theorem sameSeen.raise {s s' : State} (h : sameSeen s s') (e : Status) :
    sameSeen (s.raise e) (s'.raise e) := h.respond e 0 false

theorem sameSeen.resetBlock {s s' : State} (h : sameSeen s s') : sameSeen s.resetBlock s'.resetBlock := by
  obtain ⟨⟨hparams, -, houtside⟩, -⟩ := h
  exact ⟨⟨hparams, rfl, houtside⟩, ⟨rfl, fun _ => rfl⟩, by simp, by simp⟩

/-- The response that is taken is one both sides show. -/
theorem sameSeen.takeResponse {s s' : State} (h : sameSeen s s') (hf : s.fsm = .resp) :
    sameSeen s.takeResponse s'.takeResponse := by
  obtain ⟨⟨hparams, -, hpos, hanswers, hcommands, hreceived, hticks⟩, hpacked, -, hpending⟩ := h
  have htaken : s.received ++ [s.pending] = s'.received ++ [s'.pending] := by rw [hreceived, hpending hf]
  exact ⟨⟨hparams, rfl, hpos, hanswers, hcommands, htaken, hticks⟩, hpacked, by simp, by simp⟩

/-! ### The packed booleans -/

/-- A bit is read only from a buffer both sides agree on. -/
theorem sameSeen.pboolRead {s s' : State} (h : sameSeen s s') (hr : s.pbRem ≠ 0) :
    sameSeen (pboolRead s) (pboolRead s') := by
  obtain ⟨⟨hparams, -, houtside⟩, ⟨hrem, hbuf⟩, -, -⟩ := h
  have hbuf := hbuf hr
  refine ⟨⟨hparams, rfl, houtside⟩, ⟨congrArg decRem hrem, fun _ => congrArg dropBit hbuf⟩, by simp,
    fun _ => ?_⟩
  simp [State.pending, hbuf]

/-- A refill overwrites whatever the buffer held (10_state.md R14). -/
theorem sameSeen.pboolLoad {s s' : State} (h : sameSeen s s') (d : Byte) :
    sameSeen (pboolLoad d s) (pboolLoad d s') := by
  obtain ⟨houtside, -, hregs⟩ := h
  exact ⟨houtside, ⟨rfl, fun _ => rfl⟩, hregs⟩

theorem sameSeen.pbfin {s s' : State} (h : sameSeen s s') :
    sameSeen { s with pbRem := 0 } { s' with pbRem := 0 } := by
  obtain ⟨houtside, -, hregs⟩ := h
  exact ⟨houtside, ⟨rfl, fun hne => absurd rfl hne⟩, hregs⟩

theorem sameSeen.pbWait {s s' : State} (h : sameSeen s s') :
    sameSeen { s with fsm := .pbWait } { s' with fsm := .pbWait } := by
  obtain ⟨⟨hparams, -, houtside⟩, hpacked, -, -⟩ := h
  exact ⟨⟨hparams, rfl, houtside⟩, hpacked, by simp, by simp⟩

theorem sameSeen.answers_eq {s s' : State} (h : sameSeen s s') : s'.answers = s.answers := by
  obtain ⟨⟨-, -, -, hanswers, -⟩, -⟩ := h
  exact hanswers.symm

theorem sameSeen.pboolRefill {s s' : State} (h : sameSeen s s') :
    sameSeen (pboolRefill s) (pboolRefill s') := by
  have ha := h.answers_eq
  rcases pboolRefill_cases s with ⟨hw, -⟩ | ⟨a, rest, e, hs, he, -⟩ | ⟨d, rest, hs, -⟩
  · rw [pboolRefill_withheld hw, pboolRefill_withheld (ha ▸ hw), ha]
    exact h.withAnswers _
  · rw [pboolRefill_failed hs he, pboolRefill_failed (ha.trans hs) he]
    exact (h.withAnswers rest).raise e
  · rw [pboolRefill_byte hs, pboolRefill_byte (ha.trans hs)]
    exact ((h.takeByte rest).pboolLoad d).pboolRead (by simp)

/-! ### `VARINT` -/

/-- The start of a `VARINT` overwrites whatever the working registers held (10_state.md R15). -/
theorem sameSeen.varintStart {s s' : State} (h : sameSeen s s') :
    sameSeen (varintStart s) (varintStart s') := by
  obtain ⟨⟨hparams, -, houtside⟩, hpacked, -, -⟩ := h
  exact ⟨⟨hparams, rfl, houtside⟩, hpacked, fun _ => ⟨rfl, rfl⟩, by simp⟩

/-- What one turn of the loop reads is the same on both sides while a `VARINT` runs. -/
theorem sameSeen.running {s s' : State} (h : sameSeen s s') (hf : s.fsm = .viWait) :
    s'.params = s.params ∧ s'.viAcc = s.viAcc ∧ s'.viK = s.viK := by
  obtain ⟨⟨hparams, -⟩, -, hrun, -⟩ := h
  obtain ⟨hacc, hk⟩ := hrun hf
  exact ⟨hparams.symm, hacc.symm, hk.symm⟩

theorem sameSeen.varintMerge {s s' : State} (h : sameSeen s s') (hf : s.fsm = .viWait) (b : Byte) :
    sameSeen (varintMerge b s) (varintMerge b s') := by
  obtain ⟨hp, hacc, hk⟩ := h.running hf
  obtain ⟨houtside, hpacked, -, hpending⟩ := h
  exact ⟨houtside, hpacked, fun _ => ⟨by simp [hp, hacc, hk], hk.symm⟩, hpending⟩

theorem sameSeen.varintAdvance {s s' : State} (h : sameSeen s s') (hf : s.fsm = .viWait) :
    sameSeen (varintAdvance s) (varintAdvance s') := by
  obtain ⟨hp, hacc, hk⟩ := h.running hf
  obtain ⟨houtside, hpacked, -, hpending⟩ := h
  exact ⟨houtside, hpacked, fun _ => ⟨hacc.symm, by simp [hp, hk]⟩, hpending⟩

/-- The value a `VARINT` ends with is the same on both sides. -/
theorem sameSeen.respondAcc {s s' : State} (h : sameSeen s s') (hf : s.fsm = .viWait) :
    sameSeen (s.respond .ok s.viAcc false) (s'.respond .ok s'.viAcc false) := by
  obtain ⟨-, hacc, -⟩ := h.running hf
  rw [hacc]
  exact h.respond .ok s.viAcc false

theorem sameSeen.guardTrips_eq {s s' : State} (h : sameSeen s s') (hf : s.fsm = .viWait) (b : Byte) :
    guardTrips s'.params s'.viK b = guardTrips s.params s.viK b := by
  obtain ⟨hp, -, hk⟩ := h.running hf
  rw [hp, hk]

/-- The loops of two running `VARINT`s take the same turns. -/
theorem sameSeen.varintLoop {s s' : State} (h : sameSeen s s') (hf : s.fsm = .viWait) :
    sameSeen (varintLoop s.answers s) (varintLoop s'.answers s') := by
  refine varintLoop_induction
    (fun s t => ∀ s', sameSeen s s' → s.fsm = .viWait → sameSeen t (Machine.varintLoop s'.answers s'))
    ?waiting ?failed ?trips ?last ?more s s' h hf
  case waiting =>
    intro s hw s' h _
    have ha := h.answers_eq
    rw [varintLoop_withheld (ha ▸ hw), ha]
    exact h.withAnswers _
  case failed =>
    intro s a rest e hs he s' h _
    rw [varintLoop_failed (h.answers_eq.trans hs) he]
    exact (h.withAnswers rest).raise e
  case trips =>
    intro s b rest hs ht s' h hf
    rw [varintLoop_trips (h.answers_eq.trans hs) ((h.guardTrips_eq hf b).trans ht)]
    exact (h.takeByte rest).raise .varintOverflow
  case last =>
    intro s b rest hs ht hc s' h hf
    rw [varintLoop_last (h.answers_eq.trans hs) ((h.guardTrips_eq hf b).trans ht) hc]
    exact ((h.takeByte rest).varintMerge hf b).respondAcc hf
  case more =>
    intro s b rest t hs ht hc ih s' h hf
    rw [varintLoop_continues (h.answers_eq.trans hs) ((h.guardTrips_eq hf b).trans ht) hc]
    exact ih _ (((h.takeByte rest).varintMerge hf b).varintAdvance hf) hf

/-! ### The step -/

/-- An accepted word runs alike on both sides. -/
theorem sameSeen.runCommand {s s' t : State} {op : CmdWord} (h : sameSeen s s') (hf : s.fsm = .idle)
    (ht : runCommand op s = .next t) : ∃ t', runCommand op s' = .next t' ∧ sameSeen t t' := by
  have hf' : s'.fsm = .idle := by
    obtain ⟨⟨-, hfsm, -⟩, -⟩ := h
    exact hfsm.symm.trans hf
  have hrem : s'.pbRem = s.pbRem := by
    obtain ⟨-, ⟨hrem, -⟩, -⟩ := h
    exact hrem.symm
  rcases runCommand_cases op hf with ⟨rfl, hs⟩ | ⟨rfl, hr, hs⟩ | ⟨rfl, hr, hs⟩ | ⟨rfl, hs⟩ | ⟨rfl, hs⟩ <;>
    cases hs.symm.trans ht
  · exact ⟨_, execVarint_idle hf', h.varintStart.varintLoop rfl⟩
  · exact ⟨_, execPbool_unread hf' (by rwa [hrem]), h.pboolRead hr⟩
  · exact ⟨_, execPbool_empty hf' (by rwa [hrem]), h.pbWait.pboolRefill⟩
  · exact ⟨_, execPbfin_idle hf', h.pbfin.respond .ok 0 false⟩
  · exact ⟨_, congrArg Host.Outcome.next (reservedCommand_idle hf'), h.raise .illegalCommand⟩

/-- Settles O48: two states that agree are in one FSM state at one tick, so they do the same of the six things
a step can do, and each of them keeps the agreement. -/
theorem hiddenStateIsUnobservable : Obligations.HiddenStateIsUnobservable := by
  intro s s' t h ht
  have hpop := h.popTick
  obtain ⟨houtside, -⟩ := h
  have htick := houtside.tick_eq
  obtain ⟨-, hfsm, -, -, hcommands, -⟩ := houtside
  rcases step_cases s with ⟨hr, hs⟩ | ⟨op, rest, hr, hf, hv, hc, hs⟩ | ⟨hr, hf, hs⟩ | ⟨hr, hf, hs⟩ |
    ⟨hr, hf, hv, hs⟩ | ⟨hr, hw, hs⟩
  · cases hs.symm.trans ht
    exact ⟨_, step_reset (htick ▸ hr), hpop.resetBlock⟩
  · rw [step_accept (hfsm ▸ hf) (htick ▸ hr) (htick ▸ hv) (hcommands ▸ hc)]
    exact (hpop.withCommands rest).runCommand hf (hs.symm.trans ht)
  · cases hs.symm.trans ht
    exact ⟨_, step_varintPoll (hfsm ▸ hf) (htick ▸ hr), hpop.varintLoop hf⟩
  · cases hs.symm.trans ht
    exact ⟨_, step_pboolPoll (hfsm ▸ hf) (htick ▸ hr), hpop.pboolRefill⟩
  · cases hs.symm.trans ht
    exact ⟨_, step_deliver (hfsm ▸ hf) (htick ▸ hr) (htick ▸ hv), hpop.takeResponse hf⟩
  · cases hs.symm.trans ht
    exact ⟨_, step_hold (htick ▸ hr) (by rwa [htick, ← hfsm, ← hcommands]), hpop⟩

end Sys2Proof.Machine
end

section
/-! The byte stream: which of the source's answers a step takes, and how far the cursor moves (20_memory.md
R22, R23, R28). -/

namespace Sys2Proof.Machine

theorem bytesIn_append (es fs : List SrcEvent) : bytesIn (es ++ fs) = bytesIn es + bytesIn fs := by
  induction es with
  | nil => simp
  | cons e es ih => cases e <;> simp [bytesIn, ih, Nat.add_assoc]

/-- From `s` to `t` answers are taken from the front of the stream, and the cursor moves by the bytes among
them. -/
def takesFrom (s t : State) : Prop :=
  ∃ taken : List SrcEvent, s.answers = taken ++ t.answers ∧ t.pos = s.pos + bytesIn taken

theorem takesFrom_of_eq {s t : State} (ha : t.answers = s.answers) (hp : t.pos = s.pos) : takesFrom s t :=
  ⟨[], ha.symm, hp⟩

theorem takesFrom.trans {s t u : State} (h : takesFrom s t) (h' : takesFrom t u) : takesFrom s u := by
  obtain ⟨es, hes, hpos⟩ := h
  obtain ⟨fs, hfs, hpos'⟩ := h'
  exact ⟨es ++ fs, by rw [hes, hfs, List.append_assoc], by rw [hpos', hpos, bytesIn_append, Nat.add_assoc]⟩

/-- A fetch that waits takes at most a delay (20_memory.md R31). -/
theorem takesFrom_withheld {s t : State} (h : withheld s.answers = true) (ha : t.answers = s.answers.tail)
    (hp : t.pos = s.pos) : takesFrom s t := by
  cases hs : s.answers with
  | nil => exact takesFrom_of_eq (by rw [ha, hs]; rfl) hp
  | cons e rest =>
    cases e with
    | withhold => exact ⟨[.withhold], by rw [hs, ha, hs]; rfl, hp⟩
    | answer a => simp [hs, withheld] at h

/-- An answer that is no byte is taken, and the cursor stays (20_memory.md R21). -/
theorem takesFrom_failed {s t : State} {a : Answer} {rest : List SrcEvent} {e : Status}
    (h : s.answers = .answer a :: rest)
    (he : (fetched a = .eos ∧ e = .streamExhausted) ∨ (fetched a = .ioErr ∧ e = .ioError))
    (ha : t.answers = rest) (hp : t.pos = s.pos) : takesFrom s t := by
  refine ⟨[.answer a], by rw [h, ha]; rfl, ?_⟩
  rcases he with ⟨hf, -⟩ | ⟨hf, -⟩ <;> simp [bytesIn, hf, hp]

/-- A byte is taken, and the cursor moves by one (20_memory.md R22). -/
theorem takesFrom_byte {s t : State} {b : Byte} {rest : List SrcEvent}
    (h : s.answers = .answer ⟨0b00#2, b⟩ :: rest) (ha : t.answers = rest) (hp : t.pos = s.pos + 1) :
    takesFrom s t :=
  ⟨[.answer ⟨0b00#2, b⟩], by rw [h, ha]; rfl, by simp [bytesIn, hp]⟩

theorem takesFrom_pboolRefill (s : State) : takesFrom s (pboolRefill s) := by
  rcases pboolRefill_cases s with ⟨hw, ht⟩ | ⟨a, rest, e, ha, he, ht⟩ | ⟨d, rest, ha, ht⟩ <;> rw [ht]
  · exact takesFrom_withheld hw rfl rfl
  · exact takesFrom_failed ha he rfl rfl
  · exact takesFrom_byte ha rfl rfl

theorem takesFrom_varintLoop (s : State) : takesFrom s (varintLoop s.answers s) := by
  refine varintLoop_induction takesFrom ?waiting ?failed ?trips ?last ?more s
  case waiting => exact fun s hw => takesFrom_withheld hw rfl rfl
  case failed => exact fun s a rest e ha he => takesFrom_failed ha he rfl rfl
  case trips => exact fun s b rest ha _ => takesFrom_byte ha rfl rfl
  case last => exact fun s b rest ha _ _ => takesFrom_byte ha rfl rfl
  case more => exact fun s b rest t ha _ _ ih => (takesFrom_byte ha rfl rfl).trans ih

theorem takesFrom_runCommand {op : CmdWord} {s t : State} (hf : s.fsm = .idle)
    (ht : runCommand op s = .next t) : takesFrom s t := by
  rcases runCommand_cases op hf with ⟨-, hs⟩ | ⟨-, -, hs⟩ | ⟨-, -, hs⟩ | ⟨-, hs⟩ | ⟨-, hs⟩ <;>
    cases hs.symm.trans ht
  · exact takesFrom_varintLoop (varintStart s)
  · exact takesFrom_of_eq rfl rfl
  · exact takesFrom_pboolRefill { s with fsm := .pbWait }
  · exact takesFrom_of_eq rfl rfl
  · exact takesFrom_of_eq rfl rfl

theorem takesFrom_step {s t : State} (ht : step s = .next t) : takesFrom s t := by
  rcases step_cases s with ⟨-, hs⟩ | ⟨op, rest, -, hf, -, -, hs⟩ | ⟨-, -, hs⟩ | ⟨-, -, hs⟩ |
    ⟨-, -, -, hs⟩ | ⟨-, -, hs⟩
  · cases hs.symm.trans ht
    exact takesFrom_of_eq rfl rfl
  · exact takesFrom_runCommand (s := { s.popTick with commands := rest }) hf (hs.symm.trans ht)
  · cases hs.symm.trans ht
    exact takesFrom_varintLoop s.popTick
  · cases hs.symm.trans ht
    exact takesFrom_pboolRefill s.popTick
  · cases hs.symm.trans ht
    exact takesFrom_of_eq rfl rfl
  · cases hs.symm.trans ht
    exact takesFrom_of_eq rfl rfl

/-- Settles O16: a reset step takes nothing, and any other step is covered by `takesFrom_step`. -/
theorem bytesTakenInStreamOrder : Obligations.BytesTakenInStreamOrder := by
  intro s t ht
  cases hr : s.tick.rst with
  | true =>
    cases (step_reset hr).symm.trans ht
    exact ⟨[], rfl, rfl, fun _ => rfl⟩
  | false =>
    obtain ⟨taken, ha, hp⟩ := takesFrom_step ht
    exact ⟨taken, ha, hp, by simp⟩

end Sys2Proof.Machine
end

section
/-! The output ports (10_state.md R17), the values after reset (R19), and that every step goes on
(60_exceptions.md R68, R75). -/

namespace Sys2Proof.Machine

/-- Settles O13, by the four FSM states: each of them offers one handshake. -/
theorem oneHandshakeAtATime : Obligations.OneHandshakeAtATime := by
  intro rst s
  cases hf : s.fsm <;> cases rst <;> simp [outputs, hf]

/-- An accepted command word always leads to a next state. -/
theorem runCommand_next (op : CmdWord) {s : State} (hf : s.fsm = .idle) :
    ∃ t, runCommand op s = .next t := by
  rcases runCommand_cases op hf with ⟨-, h⟩ | ⟨-, -, h⟩ | ⟨-, -, h⟩ | ⟨-, h⟩ | ⟨-, h⟩ <;> exact ⟨_, h⟩

/-- Settles O14, by the six things a step can do. -/
theorem stepAlwaysGoesOn : Obligations.StepAlwaysGoesOn := by
  intro s
  rcases step_cases s with ⟨-, hs⟩ | ⟨op, rest, -, hf, -, -, hs⟩ | ⟨-, -, hs⟩ | ⟨-, -, hs⟩ |
    ⟨-, -, -, hs⟩ | ⟨-, -, hs⟩
  · exact ⟨_, hs, rfl⟩
  · obtain ⟨t, ht⟩ := runCommand_next op (s := { s.popTick with commands := rest }) hf
    obtain ⟨hparams, -⟩ := runCommand_others op (s := { s.popTick with commands := rest }) hf ht
    exact ⟨t, hs.trans ht, hparams⟩
  · obtain ⟨-, -, hparams, -⟩ := varintLoop_frame s.popTick
    exact ⟨_, hs, hparams⟩
  · obtain ⟨hparams, -⟩ := pboolRefill_others s.popTick
    exact ⟨_, hs, hparams⟩
  · exact ⟨_, hs, rfl⟩
  · exact ⟨_, hs, rfl⟩

theorem clockEdge_reset {p : Pins} (h : p.rst = true) (s : State) : clockEdge p s = s.resetBlock := by
  simp [clockEdge, h]

/-- Settles O39: the reset values read off, and `resetBlock` leaves the cursor alone. -/
theorem resetValues : Obligations.ResetValues := by
  refine ⟨rfl, rfl, rfl, rfl, rfl, rfl, rfl, rfl, fun p s hr => ?_⟩
  rw [clockEdge_reset hr, State.resetBlock_pos]

end Sys2Proof.Machine
end

section
/-! A source that withholds its answer (20_memory.md R31): the command waits, and the delay changes nothing
(42_control_fsm.md R67). -/

namespace Sys2Proof.Machine

/-! ### `VARINT` -/

/-- Settles O25: the run of continuation bytes takes the loop to the delay, where it stops. -/
theorem varintWaitsWithoutAnswer : Obligations.VarintWaitsWithoutAnswer := by
  intro s bs rest _ hf hu hg hw ha
  have hrun : varintLoop s.answers (varintStart s) = varintLoop rest (afterRun (varintStart s) bs rest) :=
    varintLoop_run bs (varintStart s) rest ha hu (Nat.two_pow_pos _) (Nat.two_pow_pos _) (Nat.zero_le _)
      fun hp => (Nat.zero_add _).trans_lt (hg hp)
  have hstop : varintLoop rest (afterRun (varintStart s) bs rest) =
      { afterRun (varintStart s) bs rest with answers := rest.tail } :=
    varintLoop_withheld (s := afterRun (varintStart s) bs rest) hw
  exact ⟨_, (execVarint_idle hf).trans (congrArg Host.Outcome.next (hrun.trans hstop)), rfl⟩

/-- A loop that stopped at the first delay goes on to what the loop without that delay comes to. -/
theorem varintLoop_goes_on {s t : State} {before after : List SrcEvent} (hm : .withhold ∉ before)
    (ha : s.answers = before ++ .withhold :: after) (ht : varintLoop s.answers s = t)
    (hf : t.fsm = .viWait) :
    varintLoop t.answers t = varintLoop (before ++ after) { s with answers := before ++ after } := by
  subst ht
  refine varintLoop_induction
    (fun s t => ∀ before, .withhold ∉ before → s.answers = before ++ .withhold :: after → t.fsm = .viWait →
      varintLoop t.answers t = varintLoop (before ++ after) { s with answers := before ++ after })
    ?waiting ?failed ?trips ?last ?more s before hm ha hf
  case waiting =>
    intro s hw before hm ha _
    cases before with
    | nil => simp [ha]
    | cons e es =>
      rw [ha] at hw
      cases e with
      | withhold => exact absurd List.mem_cons_self hm
      | answer a => cases hw
  case failed => intro s a rest e _ _ before _ _ hf; cases hf
  case trips => intro s b rest _ _ before _ _ hf; cases hf
  case last => intro s b rest _ _ _ before _ _ hf; cases hf
  case more =>
    intro s b rest t hs ht hc ih before hm ha hf
    rw [hs] at ha
    cases before with
    | nil => cases ha
    | cons e es =>
      obtain ⟨rfl, rfl⟩ := List.cons.inj ha
      rw [ih es (fun h => hm (List.mem_cons_of_mem _ h)) rfl hf]
      exact (varintLoop_continues
        (s := { s with answers := .answer ⟨0b00#2, b⟩ :: (es ++ after) }) rfl ht hc).symm

/-- Settles O26: the loop goes on from the delay (`varintLoop_goes_on`), and with no answer it stops where it
was. -/
theorem varintDelayIsTransparent : Obligations.VarintDelayIsTransparent := by
  refine ⟨fun s t before after hf hr hm ha ht hft => ?_, fun s hf hr ha => ?_⟩
  · have hloop : varintLoop s.answers (varintStart s) = t :=
      Host.Outcome.next.inj ((execVarint_idle hf).symm.trans ht)
    have hgo := varintLoop_goes_on (s := varintStart s) hm ha hloop hft
    obtain ⟨-, -, -, hticks⟩ : sameOthers s t := by
      obtain ⟨-, -, h⟩ := varintLoop_frame (varintStart s)
      exact hloop ▸ h
    calc step t
        = .next (varintLoop t.answers t.popTick) := step_varintPoll hft (by rwa [State.tick, hticks])
      _ = .next { varintLoop t.answers t with ticks := s.ticks.tail } := by
          rw [State.popTick, hticks, varintLoop_ticks]
      _ = .next (varintLoop (before ++ after)
            { varintStart s with answers := before ++ after, ticks := s.ticks.tail }) := by
          rw [hgo, ← varintLoop_ticks]
      _ = exec .varint { s with answers := before ++ after, ticks := s.ticks.tail } :=
          (execVarint_idle
            (s := { s with answers := before ++ after, ticks := s.ticks.tail }) hf).symm
  · rw [step_varintPoll hf hr]
    exact congrArg Host.Outcome.next
      ((varintLoop_withheld (s := s.popTick) (by rw [State.popTick_answers, ha]; rfl)).trans
        (by simp [State.popTick, ha]))

/-! ### `PBOOL` -/

/-- A `PBOOL` that needs a byte and gets no answer waits, and a delay is used up. -/
theorem execPbool_withheld {s : State} (hf : s.fsm = .idle) (hr : s.pbRem = 0)
    (hw : withheld s.answers = true) :
    execPbool s = .next { s with answers := s.answers.tail, fsm := .pbWait } :=
  (execPbool_empty hf hr).trans
    (congrArg Host.Outcome.next (pboolRefill_withheld (s := { s with fsm := .pbWait }) hw))

/-- The next step's fetch is that of a `PBOOL` accepted now. -/
theorem step_pbWait_eq_execPbool {s : State} (hf : s.fsm = .idle) (hrem : s.pbRem = 0)
    (hr : s.tick.rst = false) : step { s with fsm := .pbWait } = execPbool s.popTick :=
  (step_pboolPoll (s := { s with fsm := .pbWait }) rfl hr).trans
    (execPbool_empty (s := s.popTick) hf hrem).symm

/-- Settles O29: a withheld `PBOOL` waits, and the step after it is an undelayed `PBOOL`, withheld once more
when there is no answer. -/
theorem pboolDelayIsTransparent : Obligations.PboolDelayIsTransparent := by
  intro s rest hf hrem
  refine ⟨fun ha => ?_, fun ha => ?_⟩
  · have hw : withheld s.answers = true := by rw [ha]; rfl
    refine ⟨(execPbool_withheld hf hrem hw).trans (by simp [ha]), fun hr => ?_⟩
    exact (step_pbWait_eq_execPbool hf hrem hr).trans
      ((execPbool_withheld (s := s.popTick) hf hrem hw).trans (by simp [State.popTick, ha]))
  · have hw : withheld s.answers = true := by rw [ha]; rfl
    refine ⟨(execPbool_withheld hf hrem hw).trans (by simp [ha]), fun hr => ?_⟩
    exact step_pbWait_eq_execPbool (s := { s with answers := rest }) hf hrem hr

end Sys2Proof.Machine
end

section
/-! The reserved answer kind `11` (20_memory.md R30): every operation commutes with writing it as `IOERR`. -/

namespace Sys2Proof.Machine

/-! ### The source's answers -/

/-- An answer written over is an answer, and a fetch reads the same of it. -/
theorem reservedAsIoErr_answer (a : Answer) :
    ∃ a', reservedAsIoErr (.answer a) = .answer a' ∧ fetched a' = fetched a := by
  by_cases h : a.kind = 0b11#2
  · exact ⟨{ a with kind := 0b10#2 }, by simp [reservedAsIoErr, h], by simp [fetched, h]⟩
  · exact ⟨a, by simp [reservedAsIoErr, h], rfl⟩

theorem withheld_map_reservedAsIoErr (es : List SrcEvent) :
    withheld (es.map reservedAsIoErr) = withheld es := by
  cases es with
  | nil => rfl
  | cons e es =>
    cases e with
    | withhold => rfl
    | answer a =>
      obtain ⟨a', ha', -⟩ := reservedAsIoErr_answer a
      rw [List.map_cons, ha']
      rfl

/-- The same state beside a source that says `IOERR` wherever it said `11`. -/
def State.writeIoErr (s : State) : State := { s with answers := s.answers.map reservedAsIoErr }

theorem writeIoErr_withheld {s : State} (h : withheld s.answers = true) :
    withheld s.writeIoErr.answers = true := (withheld_map_reservedAsIoErr s.answers).trans h

/-- A byte is no reserved answer, so it stays. -/
theorem writeIoErr_byte {s : State} {b : Byte} {rest : List SrcEvent}
    (h : s.answers = .answer ⟨0b00#2, b⟩ :: rest) :
    s.writeIoErr.answers = .answer ⟨0b00#2, b⟩ :: rest.map reservedAsIoErr :=
  congrArg (List.map reservedAsIoErr) h

/-- An answer that ends a command ends it with the same status. -/
theorem writeIoErr_failed {s : State} {a : Answer} {rest : List SrcEvent} {e : Status}
    (h : s.answers = .answer a :: rest)
    (he : (fetched a = .eos ∧ e = .streamExhausted) ∨ (fetched a = .ioErr ∧ e = .ioError)) :
    ∃ a', s.writeIoErr.answers = .answer a' :: rest.map reservedAsIoErr ∧
      ((fetched a' = .eos ∧ e = .streamExhausted) ∨ (fetched a' = .ioErr ∧ e = .ioError)) := by
  obtain ⟨a', ha', hfetched⟩ := reservedAsIoErr_answer a
  refine ⟨a', ?_, hfetched ▸ he⟩
  rw [← ha']
  exact congrArg (List.map reservedAsIoErr) h

/-- What is left after a wait. -/
theorem writeIoErr_tail (s : State) :
    { s.writeIoErr with answers := s.writeIoErr.answers.tail } =
      State.writeIoErr { s with answers := s.answers.tail } := by
  simp only [State.writeIoErr, List.map_tail]

/-! ### The commands -/

theorem pboolRefill_writeIoErr (s : State) : pboolRefill s.writeIoErr = (pboolRefill s).writeIoErr := by
  rcases pboolRefill_cases s with ⟨hw, -⟩ | ⟨a, rest, e, ha, he, -⟩ | ⟨d, rest, ha, -⟩
  · rw [pboolRefill_withheld hw, pboolRefill_withheld (writeIoErr_withheld hw), writeIoErr_tail]
  · obtain ⟨a', ha', he'⟩ := writeIoErr_failed ha he
    rw [pboolRefill_failed ha he, pboolRefill_failed ha' he']
    rfl
  · rw [pboolRefill_byte ha, pboolRefill_byte (writeIoErr_byte ha)]
    rfl

/-- The loops take the same turns. -/
theorem varintLoop_writeIoErr (s : State) :
    varintLoop s.writeIoErr.answers s.writeIoErr = (varintLoop s.answers s).writeIoErr := by
  refine varintLoop_induction (fun s t => varintLoop s.writeIoErr.answers s.writeIoErr = t.writeIoErr)
    ?waiting ?failed ?trips ?last ?more s
  case waiting =>
    intro s hw
    rw [varintLoop_withheld (writeIoErr_withheld hw), writeIoErr_tail]
  case failed =>
    intro s a rest e ha he
    obtain ⟨a', ha', he'⟩ := writeIoErr_failed ha he
    rw [varintLoop_failed ha' he']
    rfl
  case trips =>
    intro s b rest ha ht
    rw [varintLoop_trips (writeIoErr_byte ha) ht]
    rfl
  case last =>
    intro s b rest ha ht hc
    rw [varintLoop_last (writeIoErr_byte ha) ht hc]
    rfl
  case more =>
    intro s b rest t ha ht hc ih
    rw [varintLoop_continues (writeIoErr_byte ha) ht hc]
    exact ih

theorem runCommand_writeIoErr {op : CmdWord} {s t : State} (hf : s.fsm = .idle)
    (ht : runCommand op s = .next t) : runCommand op s.writeIoErr = .next t.writeIoErr := by
  have hf' : s.writeIoErr.fsm = .idle := hf
  rcases runCommand_cases op hf with ⟨rfl, hs⟩ | ⟨rfl, hr, hs⟩ | ⟨rfl, hr, hs⟩ | ⟨rfl, hs⟩ | ⟨rfl, hs⟩ <;>
    cases hs.symm.trans ht
  · exact (execVarint_idle hf').trans (congrArg Host.Outcome.next (varintLoop_writeIoErr (varintStart s)))
  · exact execPbool_unread hf' hr
  · exact (execPbool_empty hf' hr).trans
      (congrArg Host.Outcome.next (pboolRefill_writeIoErr { s with fsm := .pbWait }))
  · exact execPbfin_idle hf'
  · exact congrArg Host.Outcome.next (reservedCommand_idle hf')

/-! ### The step -/

/-- Only a step that asks the source reads its answers, and what it does commutes. -/
theorem step_writeIoErr {s t : State} (ht : step s = .next t) : step s.writeIoErr = .next t.writeIoErr := by
  rcases step_cases s with ⟨hr, hs⟩ | ⟨op, rest, hr, hf, hv, hc, hs⟩ | ⟨hr, hf, hs⟩ | ⟨hr, hf, hs⟩ |
    ⟨hr, hf, hv, hs⟩ | ⟨hr, hw, hs⟩
  · cases hs.symm.trans ht
    exact step_reset hr
  · rw [step_accept (s := s.writeIoErr) hf hr hv hc]
    exact runCommand_writeIoErr (s := { s.popTick with commands := rest }) hf (hs.symm.trans ht)
  · cases hs.symm.trans ht
    exact (step_varintPoll (s := s.writeIoErr) hf hr).trans
      (congrArg Host.Outcome.next (varintLoop_writeIoErr s.popTick))
  · cases hs.symm.trans ht
    exact (step_pboolPoll (s := s.writeIoErr) hf hr).trans
      (congrArg Host.Outcome.next (pboolRefill_writeIoErr s.popTick))
  · cases hs.symm.trans ht
    exact step_deliver hf hr hv
  · cases hs.symm.trans ht
    exact step_hold hr hw

/-- Settles O37: the encoding read off, and `step_writeIoErr`. -/
theorem reservedKindActsAsIoErr : Obligations.ReservedKindActsAsIoErr :=
  ⟨fun _ => ⟨rfl, rfl, rfl, rfl⟩, fun _ _ => step_writeIoErr⟩

end Sys2Proof.Machine
end

section
/-! The command words and the status codes (30_encoding.md R35, R38), and the command channel: what a word
presented to the block does (R34, R36), and that each accepted one is answered once (R40). -/

namespace Sys2Proof.Machine

/-! ### The command words and the status codes -/

/-- Settles O1: the table of R35, row by row. -/
theorem commandWordsDecode : Obligations.CommandWordsDecode := ⟨rfl, rfl, rfl, rfl⟩

@[simp] theorem decode_encode (i : Instr) : decode (encode i) = .instr i := by cases i <;> rfl

theorem encode_of_decode {op : CmdWord} {i : Instr} (h : decode op = .instr i) : encode i = op := by
  unfold decode at h
  split_ifs at h with h0 h1 h2 <;> cases h
  · exact h0.symm
  · exact h1.symm
  · exact h2.symm

/-- Settles O2, by the rows of the table. -/
theorem decodeEncodeAgree : Obligations.DecodeEncodeAgree :=
  ⟨decode_encode, fun _ _ => encode_of_decode⟩

theorem ofCode_eq_some_iff (c : BitVec 3) (st : Status) : Status.ofCode c = some st ↔ st.code = c := by
  cases st <;> revert c <;> decide

theorem code_ne_reserved (st : Status) : st.code ≠ 0b101#3 ∧ st.code ≠ 0b110#3 ∧ st.code ≠ 0b111#3 := by
  cases st <;> decide

/-- Settles O3: the port shows the code of the status register, and no status has one of the last three
codes. -/
theorem statusCodesAgree : Obligations.StatusCodesAgree :=
  ⟨rfl, rfl, rfl, rfl, rfl, ofCode_eq_some_iff, fun _ s => ⟨rfl, code_ne_reserved s.rspStatus⟩⟩

/-! ### What a word presented to an idle block does -/

theorem runCommand_instr {op : CmdWord} {i : Instr} (h : decode op = .instr i) (s : State) :
    runCommand op s = exec i s := by simp only [runCommand, h]

/-- Settles O9: the step accepts the word (`step_accept`), which stands for `i`. -/
theorem stepRunsDecodedCommand : Obligations.StepRunsDecodedCommand :=
  fun _ _ _ _ hf hr hv hc hi => (step_accept hf hr hv hc).trans (runCommand_instr hi _)

theorem decode_of_decodeTableWord {nbits w : Nat} {i : Instr} (h : decodeTableWord nbits w = some i) :
    decode (cmdWordOf nbits w) = .instr i := by
  unfold decodeTableWord at h
  split at h <;> cases h
  assumption

/-- A placed word meets what acceptance asks of the tick. -/
theorem withFetchWord_tick (s : State) (nbits w : Nat) :
    (s.withFetchWord nbits w).tick.rst = false ∧ (s.withFetchWord nbits w).tick.cmdValid = true := by
  cases hs : s.ticks <;> simp [State.tick, State.withFetchWord, hs, Tick.presenting]

@[simp] theorem withFetchWord_ticks_tail (s : State) (nbits w : Nat) :
    (s.withFetchWord nbits w).ticks.tail = s.ticks.tail := by
  cases hs : s.ticks <;> simp [State.withFetchWord, hs]

/-- Settles O10: the placed word is one that an idle block accepts (O9). -/
theorem placedWordRunsNext : Obligations.PlacedWordRunsNext := by
  intro s nbits w i hi
  obtain ⟨hr, hv⟩ := withFetchWord_tick s nbits w
  rw [stepRunsDecodedCommand (s.withFetchWord nbits w) _ s.commands i rfl hr hv rfl
    (decode_of_decodeTableWord hi), withFetchWord_ticks_tail]
  rfl

theorem runCommand_reserved {s : State} (hf : s.fsm = .idle) :
    runCommand 0b11#2 s = .next (s.raise .illegalCommand) :=
  congrArg Host.Outcome.next (reservedCommand_idle hf)

/-- Settles O11: the word is accepted, and its answer is the exception alone. -/
theorem reservedCommandIsIllegal : Obligations.ReservedCommandIsIllegal :=
  fun s rest hf hr hv hc =>
    (step_accept hf hr hv hc).trans (runCommand_reserved (s := { s.popTick with commands := rest }) hf)

/-! ### A command in the block -/

theorem exec_busy {s : State} (hf : s.fsm ≠ .idle) (i : Instr) : exec i s = .next s := by
  cases i
  · exact execVarint_busy hf
  · exact execPbool_busy hf
  · exact execPbfin_busy hf

theorem varintLoop_commands (s : State) : (varintLoop s.answers s).commands = s.commands := by
  obtain ⟨-, -, -, hcommands, -⟩ := varintLoop_frame s
  exact hcommands

theorem varintLoop_received (s : State) : (varintLoop s.answers s).received = s.received := by
  obtain ⟨-, -, -, -, hreceived, -⟩ := varintLoop_frame s
  exact hreceived

theorem pboolRefill_commands (s : State) : (pboolRefill s).commands = s.commands := by
  obtain ⟨-, hcommands, -⟩ := pboolRefill_others s
  exact hcommands

theorem pboolRefill_received (s : State) : (pboolRefill s).received = s.received := by
  obtain ⟨-, -, hreceived, -⟩ := pboolRefill_others s
  exact hreceived

/-- Settles O12: in a busy state a step is a reset, a poll, a response taken or nothing, and none of them
looks at the caller's words. -/
theorem busyBlockAcceptsNothing : Obligations.BusyBlockAcceptsNothing := by
  refine fun s hf => ⟨exec_busy hf, fun t ht => ?_⟩
  rcases step_cases s with ⟨-, hs⟩ | ⟨op, rest, -, hidle, -⟩ | ⟨-, -, hs⟩ | ⟨-, -, hs⟩ |
    ⟨-, -, -, hs⟩ | ⟨-, -, hs⟩
  · cases hs.symm.trans ht; rfl
  · exact absurd hidle hf
  · cases hs.symm.trans ht; exact varintLoop_commands s.popTick
  · cases hs.symm.trans ht; exact pboolRefill_commands s.popTick
  · cases hs.symm.trans ht; rfl
  · cases hs.symm.trans ht; rfl

/-! ### One response for each command -/

theorem inFlight_idle {s : State} (hf : s.fsm = .idle) : s.inFlight = 0 := if_pos hf

theorem inFlight_busy {s : State} (hf : s.fsm ≠ .idle) : s.inFlight = 1 := if_neg hf

/-- A refill ends in `PB_WAIT` or `RESP`. -/
theorem pboolRefill_busy {s : State} (hf : s.fsm ≠ .idle) : (pboolRefill s).fsm ≠ .idle := by
  rcases pboolRefill_cases s with ⟨-, h⟩ | ⟨a, rest, e, -, -, h⟩ | ⟨d, rest, -, h⟩ <;> rw [h]
  · exact hf
  · simp
  · simp

/-- The loop ends in `VI_WAIT` or `RESP`. -/
theorem varintLoop_busy {s : State} (hf : s.fsm ≠ .idle) : (varintLoop s.answers s).fsm ≠ .idle := by
  refine varintLoop_induction (fun s t => s.fsm ≠ .idle → t.fsm ≠ .idle) ?waiting ?failed ?trips ?last ?more
    s hf
  case waiting => exact fun s _ hf => hf
  case failed => intros; simp
  case trips => intros; simp
  case last => intros; simp
  case more => exact fun s b rest t _ _ _ ih hf => ih hf

/-- An accepted command is in the block until its response is taken. -/
theorem runCommand_busy {op : CmdWord} {s t : State} (hf : s.fsm = .idle)
    (ht : runCommand op s = .next t) : t.fsm ≠ .idle := by
  rcases runCommand_cases op hf with ⟨-, hs⟩ | ⟨-, -, hs⟩ | ⟨-, -, hs⟩ | ⟨-, hs⟩ | ⟨-, hs⟩ <;>
    cases hs.symm.trans ht
  · exact varintLoop_busy (s := varintStart s) (by simp)
  · simp
  · exact pboolRefill_busy (by simp)
  · simp
  · simp

/-- While a command waits in the block nothing moves. -/
theorem busy_keeps_count {s t : State} (hs : s.fsm ≠ .idle) (ht : t.fsm ≠ .idle)
    (hcommands : t.commands = s.commands) (hreceived : t.received = s.received) :
    s.commands.length + s.inFlight + s.received.length =
      t.commands.length + t.inFlight + t.received.length := by
  rw [hcommands, hreceived, inFlight_busy hs, inFlight_busy ht]

/-- Settles O15: acceptance moves a command from the caller into the block, delivery moves it from there to
the responses, and a poll or an idle step moves none. -/
theorem oneResponsePerCommand : Obligations.OneResponsePerCommand := by
  intro s t ht
  rcases step_cases s with ⟨hr, hs⟩ | ⟨op, rest, hr, hf, -, hc, hs⟩ | ⟨hr, hf, hs⟩ | ⟨hr, hf, hs⟩ |
    ⟨hr, hf, -, hs⟩ | ⟨hr, -, hs⟩
  · cases hs.symm.trans ht
    exact ⟨⟨[], by simp⟩, by simp [hr], fun _ => ⟨inFlight_idle rfl, rfl, rfl⟩⟩
  · rw [hs] at ht
    have hidle : ({ s.popTick with commands := rest } : State).fsm = .idle := hf
    obtain ⟨-, hcommands, hreceived, -⟩ := runCommand_others op hidle ht
    have hbusy := runCommand_busy hidle ht
    refine ⟨⟨[], by simp [hreceived]⟩, fun _ => ?_, by simp [hr]⟩
    rw [hcommands, hreceived, inFlight_idle hf, inFlight_busy hbusy, hc]
    simp
  · cases hs.symm.trans ht
    have hbusy : s.popTick.fsm ≠ .idle := by simp [hf]
    have hreceived := varintLoop_received s.popTick
    exact ⟨⟨[], hreceived.trans (List.append_nil _).symm⟩,
      fun _ => busy_keeps_count hbusy (varintLoop_busy hbusy) (varintLoop_commands s.popTick) hreceived,
      by simp [hr]⟩
  · cases hs.symm.trans ht
    have hbusy : s.popTick.fsm ≠ .idle := by simp [hf]
    have hreceived := pboolRefill_received s.popTick
    exact ⟨⟨[], hreceived.trans (List.append_nil _).symm⟩,
      fun _ => busy_keeps_count hbusy (pboolRefill_busy hbusy) (pboolRefill_commands s.popTick) hreceived,
      by simp [hr]⟩
  · cases hs.symm.trans ht
    refine ⟨⟨[s.pending], rfl⟩, fun _ => ?_, by simp [hr]⟩
    rw [inFlight_busy (by simp [hf]), inFlight_idle (State.takeResponse_fsm _)]
    simp only [State.takeResponse_commands, State.takeResponse_received, State.popTick_commands,
      State.popTick_received, List.length_append, List.length_singleton]
    omega
  · cases hs.symm.trans ht
    exact ⟨⟨[], by simp⟩, fun _ => rfl, by simp [hr]⟩

end Sys2Proof.Machine
end

section
/-! The VarInt wire format (30_encoding.md R41), the shortest encoding (R42), and what `VARINT` makes of a
VarInt whose value fits (40_varint.md R47). -/

namespace Sys2Proof.Machine

/-! ### The bytes of a VarInt (R41) -/

theorem group_toNat (b : Byte) : (group b).toNat = b.toNat % 128 := by
  rw [group, BitVec.extractLsb'_toNat, Nat.shiftRight_zero]

theorem continues_iff (b : Byte) : continues b = true ↔ 128 ≤ b.toNat := by
  have hb : b.toNat < 256 := b.isLt
  rw [continues, ← BitVec.testBit_toNat, Nat.testBit_eq_decide_div_mod_eq, decide_eq_true_eq]
  omega

theorem isVarInt_append_singleton (pre : List Byte) (b : Byte) :
    isVarInt (pre ++ [b]) = true ↔ unfinished pre = true ∧ continues b = false := by
  rw [isVarInt_iff]
  constructor
  · rintro ⟨pre', b', h, hpre, hb⟩
    obtain ⟨rfl, hlast⟩ := List.append_inj' h rfl
    obtain rfl := List.singleton_inj.mp hlast
    exact ⟨hpre, hb⟩
  · exact fun ⟨hpre, hb⟩ => ⟨pre, b, rfl, hpre, hb⟩

theorem unfinished_iff_getD (pre as : List Byte) :
    unfinished pre = true ↔ ∀ i < pre.length, continues ((pre ++ as).getD i 0) = true := by
  simp only [unfinished, List.all_eq_true, List.forall_mem_iff_getElem]
  refine forall₂_congr fun i hi => ?_
  rw [List.getD_append _ _ _ _ hi, List.getD_eq_getElem _ _ hi]

/-- A VarInt by the positions of its bytes: what R41 says of `b_0 .. b_n`. -/
theorem isVarInt_iff_getD (bs : List Byte) :
    isVarInt bs = true ↔ ∃ n, bs.length = n + 1 ∧
      (∀ i < n, continues (bs.getD i 0) = true) ∧ continues (bs.getD n 0) = false := by
  rcases List.eq_nil_or_concat' bs with rfl | ⟨pre, b, rfl⟩
  · simp [isVarInt]
  · have hlast : (pre ++ [b]).getD pre.length 0 = b := by simp
    rw [isVarInt_append_singleton, unfinished_iff_getD pre [b]]
    constructor
    · exact fun ⟨hpre, hb⟩ => ⟨pre.length, by simp, hpre, by rwa [hlast]⟩
    · rintro ⟨n, hn, hpre, hb⟩
      obtain rfl : pre.length = n := by simpa using hn
      exact ⟨hpre, hlast ▸ hb⟩

/-- Horner's scheme and the sum of R41 spell the same value. -/
theorem spelled_eq_sum (bs : List Byte) :
    spelled bs = ((List.range bs.length).map fun i => (group (bs.getD i 0)).toNat * 2 ^ (7 * i)).sum := by
  induction bs with
  | nil => rfl
  | cons b bs ih =>
    have hshift : ∀ i, (group ((b :: bs).getD (i + 1) 0)).toNat * 2 ^ (7 * (i + 1)) =
        2 ^ 7 * ((group (bs.getD i 0)).toNat * 2 ^ (7 * i)) := by
      intro i
      rw [List.getD_cons_succ, Nat.mul_add, Nat.pow_add]
      ring
    rw [spelled_cons, ih, List.length_cons, List.range_succ_eq_map, List.map_cons, List.map_map,
      List.sum_cons, ← List.sum_map_mul_left]
    simp only [Function.comp_def, Nat.succ_eq_add_one, hshift, List.getD_cons_zero, Nat.mul_zero,
      Nat.pow_zero, Nat.mul_one]

/-- Settles O6, from the fields of a byte, the positions of a VarInt's bytes and Horner's scheme. -/
theorem varintWireFormat : Obligations.VarintWireFormat :=
  ⟨fun b => ⟨group_toNat b, continues_iff b⟩, fun bs => ⟨isVarInt_iff_getD bs, spelled_eq_sum bs⟩⟩

/-! ### The shortest encoding (R42) -/

theorem group_ofNat_mod (v : Nat) : (group (BitVec.ofNat 8 v)).toNat = v % 128 := by
  rw [group_toNat, BitVec.toNat_ofNat]; omega

theorem continues_ofNat_of_lt {v : Nat} (h : v < 128) : continues (BitVec.ofNat 8 v) = false := by
  rw [Bool.eq_false_iff, ne_eq, continues_iff, BitVec.toNat_ofNat]; omega

theorem continues_ofNat_add (v : Nat) : continues (BitVec.ofNat 8 (v % 128 + 128)) = true := by
  rw [continues_iff, BitVec.toNat_ofNat]; omega

theorem isVarInt_cons_of_continues {b : Byte} {bs : List Byte} (hb : continues b = true)
    (h : isVarInt bs = true) : isVarInt (b :: bs) = true := by
  cases bs with
  | nil => cases h
  | cons c cs => simp only [isVarInt, hb, h, Bool.and_self]

theorem shortestWithin_of_lt {fuel v : Nat} (h : v < 128) : shortestWithin fuel v = [BitVec.ofNat 8 v] := by
  cases fuel with
  | zero => rw [shortestWithin, Nat.mod_eq_of_lt h]
  | succ fuel => rw [shortestWithin, if_pos h]

theorem shortestWithin_of_ge {fuel v : Nat} (h : 128 ≤ v) :
    shortestWithin (fuel + 1) v = BitVec.ofNat 8 (v % 128 + 128) :: shortestWithin fuel (v / 128) := by
  rw [shortestWithin, if_neg (Nat.not_lt.mpr h)]

/-- The length formula of R42. -/
def shortestLength (v : Nat) : Nat := max 1 ((v.size + 6) / 7)

theorem shortestLength_of_lt {v : Nat} (h : v < 128) : shortestLength v = 1 := by
  have : v.size ≤ 7 := Nat.size_le.mpr h
  unfold shortestLength; omega

/-- Each byte takes seven bits off. -/
theorem size_of_ge {v : Nat} (h : 128 ≤ v) : v.size = (v / 128).size + 7 := by
  refine Nat.le_antisymm ?_ ?_
  · rw [Nat.size_le, Nat.pow_add, ← Nat.div_lt_iff_lt_mul (by decide)]
    exact Nat.lt_size_self _
  · rw [← Nat.size_shiftLeft (by omega : v / 128 ≠ 0) 7]
    exact Nat.size_le_size (by rw [Nat.shiftLeft_eq]; omega)

theorem shortestLength_of_ge {v : Nat} (h : 128 ≤ v) : shortestLength v = shortestLength (v / 128) + 1 := by
  have hpos : 0 < (v / 128).size := Nat.size_pos.mpr (by omega)
  unfold shortestLength
  rw [size_of_ge h]; omega

/-- The three facts of the shortest encoding, for any fuel that is enough. -/
theorem shortestWithin_spec (fuel : Nat) : ∀ v ≤ fuel, isVarInt (shortestWithin fuel v) = true ∧
    spelled (shortestWithin fuel v) = v ∧ (shortestWithin fuel v).length = shortestLength v := by
  induction fuel with
  | zero =>
    intro v hv
    obtain rfl : v = 0 := by omega
    decide
  | succ fuel ih =>
    intro v hv
    rcases Nat.lt_or_ge v 128 with h | h
    · rw [shortestWithin_of_lt h, shortestLength_of_lt h]
      exact ⟨by simp [isVarInt, continues_ofNat_of_lt h], by simp [group_ofNat_mod]; omega, rfl⟩
    · obtain ⟨hform, hvalue, hlength⟩ := ih (v / 128) (by omega)
      rw [shortestWithin_of_ge h]
      refine ⟨isVarInt_cons_of_continues (continues_ofNat_add v) hform, ?_, ?_⟩
      · rw [spelled_cons, hvalue, group_ofNat_mod]; omega
      · rw [List.length_cons, hlength, shortestLength_of_ge h]

/-- Settles O8: the fuel `v` is enough for `v`. -/
theorem shortestEncodingIsVarInt : Obligations.ShortestEncodingIsVarInt :=
  fun v => shortestWithin_spec v v le_rfl

/-- What fits in `W` bits has an encoding of at most `MAXB` bytes. -/
theorem length_shortest_le {p : Params} {v : Nat} (hp : p.wf) (h : v < 2 ^ p.width) :
    (shortest v).length ≤ maxb p := by
  obtain ⟨-, -, hlength⟩ := shortestEncodingIsVarInt v
  have hsize : v.size ≤ p.width := Nat.size_le.mpr h
  have hpos := maxb_pos hp
  rw [hlength]; unfold maxb at *; omega

/-! ### `VARINT` on a value that fits (40_varint.md R47) -/

/-- A last byte whose group lies within the `W` bits does not trip `GUARD` (R51). -/
theorem guardTrips_of_fits {p : Params} {k : Nat} {b : Byte} (hp : p.wf) (hc : continues b = false)
    (hv : (group b).toNat * 2 ^ (7 * k) < 2 ^ p.width) : guardTrips p k b = false := by
  rw [Bool.eq_false_iff, ne_eq, guardTrips_iff]
  rintro ⟨-, rfl, h | h⟩
  · simp [hc] at h
  · have hsplit : p.width = (p.width - 7 * (maxb p - 1)) + 7 * (maxb p - 1) := by
      have := seven_maxb_lt p
      have := maxb_pos hp
      omega
    rw [hsplit, Nat.pow_add] at hv
    exact h (Nat.div_eq_of_lt (Nat.lt_of_mul_lt_mul_right hv))

/-- A run that starts a `VARINT`, while nothing is truncated and the index not saturated. -/
theorem afterRun_varintStart {s : State} {bs : List Byte} (hlen : bs.length ≤ maxb s.params)
    (hfits : spelled bs < 2 ^ s.params.width) (es : List SrcEvent) :
    afterRun (varintStart s) bs es =
      { varintStart s with
        answers := es, pos := s.pos + bs.length, viAcc := spelled bs, viK := bs.length } := by
  simp [afterRun, truncW_of_lt hfits, Nat.min_eq_left hlen]

/-- Under both policies a VarInt of at most `MAXB` bytes whose value fits is decoded to that value. -/
theorem execVarint_of_fits {s : State} {bs : List Byte} {rest : List SrcEvent} (hp : s.params.wf)
    (hf : s.fsm = .idle) (hform : isVarInt bs = true) (hlen : bs.length ≤ maxb s.params)
    (hfits : spelled bs < 2 ^ s.params.width) (ha : s.answers = byteAnswers bs ++ rest) :
    ∃ t, exec .varint s = .next t ∧ varintEnded s t bs.length rest .ok (spelled bs) := by
  obtain ⟨pre, b, rfl, hpre, hb⟩ := (isVarInt_iff bs).mp hform
  rw [List.length_append, List.length_singleton] at hlen
  rw [byteAnswers_append, List.append_assoc] at ha
  have hsum := spelled_append_singleton pre b
  have hvalue : spelled pre ||| groupTerm s.params pre.length b = spelled (pre ++ [b]) := by
    rw [or_groupTerm (spelled_lt pre) (by omega) b, ← hsum, truncW_of_lt hfits]
  have htrips : guardTrips s.params pre.length b = false := guardTrips_of_fits hp hb (by omega)
  have hrun := varintLoop_run pre (varintStart s) _ ha hpre (Nat.two_pow_pos _)
    (Nat.two_pow_pos _) (Nat.zero_le _) (fun _ => (Nat.zero_add _).trans_lt hlen)
  rw [afterRun_varintStart (by omega) (by omega)] at hrun
  have hlast := varintLoop_last
    (s := { varintStart s with
      answers := byteAnswers [b] ++ rest, pos := s.pos + pre.length, viAcc := spelled pre,
      viK := pre.length }) rfl htrips hb
  refine ⟨_, (execVarint_idle hf).trans (congrArg Host.Outcome.next (hrun.trans hlast)), ?_⟩
  simp [varintEnded, hvalue, varintStart, Nat.add_assoc]

/-- Settles O22: the shortest encoding of what fits in `W` bits is such a VarInt. -/
theorem varintRoundTrip : Obligations.VarintRoundTrip := by
  intro s v rest hp hf hv ha
  obtain ⟨hform, hvalue, -⟩ := shortestEncodingIsVarInt v
  have h := execVarint_of_fits hp hf hform (length_shortest_le hp hv) (by rwa [hvalue]) ha
  rwa [hvalue] at h

end Sys2Proof.Machine
end

section
/-! The written form of a program (30_encoding.md R45, R46): a line's text is read back as the line, and a
comment is not read. -/

namespace Sys2Proof.Machine

/-! ### Decimal numbers -/

theorem digitValue_digitChar {d : Nat} (h : d < 10) : digitValue (digitChar d) = some d := by
  revert d; decide

theorem readDigits_digitChar {d : Nat} (h : d < 10) (acc : Nat) (cs : List Char) :
    readDigits acc (digitChar d :: cs) = readDigits (acc * 10 + d) cs := by
  rw [readDigits, digitValue_digitChar h, Option.bind_some]

/-- Reading the digits of `n` before others is reading the others after `n`. -/
theorem readDigits_decimalWithin (fuel : Nat) :
    ∀ n ≤ fuel, ∀ tail, readDigits 0 (decimalWithin fuel n tail) = readDigits n tail := by
  induction fuel with
  | zero =>
    intro n hn tail
    obtain rfl : n = 0 := by omega
    exact readDigits_digitChar (by decide) 0 tail
  | succ fuel ih =>
    intro n hn tail
    rw [decimalWithin]
    split_ifs with h
    · rw [readDigits_digitChar h, Nat.zero_mul, Nat.zero_add]
    · rw [ih (n / 10) (by omega), readDigits_digitChar (Nat.mod_lt _ (by decide)), Nat.div_add_mod']

theorem decimalWithin_ne_nil (fuel : Nat) : ∀ n tail, decimalWithin fuel n tail ≠ [] := by
  induction fuel with
  | zero => exact fun n tail => List.cons_ne_nil _ _
  | succ fuel ih =>
    intro n tail
    rw [decimalWithin]
    split_ifs
    · exact List.cons_ne_nil _ _
    · exact ih _ _

theorem decimal_ne_nil (m : Nat) : decimal m ≠ [] := decimalWithin_ne_nil m m []

theorem readDecimal_of_ne_nil {cs : List Char} (h : cs ≠ []) : readDecimal cs = readDigits 0 cs := by
  cases cs with
  | nil => exact absurd rfl h
  | cons c cs => rfl

theorem readDecimal_decimal (m : Nat) : readDecimal (decimal m) = some m :=
  (readDecimal_of_ne_nil (decimal_ne_nil m)).trans (readDigits_decimalWithin m m le_rfl [])

/-! ### Words and comments -/

/-- A character of a word: it neither ends the word nor begins a comment. -/
def wordChar (c : Char) : Bool := !isSpace c && c ≠ ';'

theorem wordChar_digitChar {d : Nat} (h : d < 10) : wordChar (digitChar d) = true := by
  revert d; decide

theorem wordChar_of_mem_decimalWithin (fuel : Nat) : ∀ n tail, (∀ c ∈ tail, wordChar c = true) →
    ∀ c ∈ decimalWithin fuel n tail, wordChar c = true := by
  have hdigit (n : Nat) : wordChar (digitChar (n % 10)) = true := wordChar_digitChar (Nat.mod_lt _ (by decide))
  induction fuel with
  | zero => exact fun n tail ht => List.forall_mem_cons.mpr ⟨hdigit n, ht⟩
  | succ fuel ih =>
    intro n tail ht
    rw [decimalWithin]
    split_ifs with h
    · exact List.forall_mem_cons.mpr ⟨wordChar_digitChar h, ht⟩
    · exact ih _ _ (List.forall_mem_cons.mpr ⟨hdigit n, ht⟩)

theorem wordChar_of_mem_decimal (m : Nat) : ∀ c ∈ decimal m, wordChar c = true :=
  wordChar_of_mem_decimalWithin m m [] (by simp)

/-- The characters of a word join the word that has begun. -/
theorem splitWords_append {w : List Char} (hw : ∀ c ∈ w, wordChar c = true) (cs : List Char) :
    ∀ word, splitWords word (w ++ cs) = splitWords (w.reverse ++ word) cs := by
  induction w with
  | nil => exact fun word => rfl
  | cons c w ih =>
    intro word
    obtain ⟨hc, hw⟩ := List.forall_mem_cons.mp hw
    have hspace : isSpace c = false := by simp_all [wordChar]
    rw [List.cons_append, splitWords, hspace, if_neg Bool.false_ne_true, ih hw]
    simp

theorem splitWords_single {w : List Char} (hw : ∀ c ∈ w, wordChar c = true) (hne : w ≠ []) :
    splitWords [] w = [w] := by
  have h := splitWords_append hw [] []
  simpa [splitWords, hne] using h

/-- A word and a space are split off. -/
theorem splitWords_cons {w : List Char} (hw : ∀ c ∈ w, wordChar c = true) (hne : w ≠ []) (cs : List Char) :
    splitWords [] (w ++ ' ' :: cs) = w :: splitWords [] cs := by
  rw [splitWords_append hw, splitWords]
  simp [isSpace, hne]

theorem dropComment_eq_self {cs : List Char} (h : ∀ c ∈ cs, c ≠ ';') : dropComment cs = cs :=
  List.takeWhile_eq_self_iff.mpr (by simpa using h)

theorem dropComment_comment (line comment : List Char) :
    dropComment (line ++ ';' :: comment) = dropComment line := by
  induction line with
  | nil => rfl
  | cons c line ih =>
    by_cases hc : c = ';'
    · simp [dropComment, hc]
    · simpa [dropComment, hc] using ih

/-! ### Lines -/

theorem parseWords_pbgroup {m : Nat} (h : 1 ≤ m) :
    parseWords [groupWord, decimal m] = .line (.pbgroup m) := by
  have hword : groupWord ≠ cmdDirective := by decide
  simp [parseWords, hword, readDecimal_decimal, h]

/-- The line of a group: two words, the second of which is read back as `m`. -/
theorem parseLine_pbgroup {m : Nat} (h : 1 ≤ m) :
    parseLine (AsmLine.pbgroup m).text = .line (.pbgroup m) := by
  have hgroup : ∀ c ∈ groupWord, wordChar c = true := List.all_eq_true.mp (by decide)
  have hnumber := wordChar_of_mem_decimal m
  have hcomment : ∀ c ∈ groupWord ++ ' ' :: decimal m, c ≠ ';' := by
    intro c hc
    simp only [List.mem_append, List.mem_cons] at hc
    rcases hc with hc | rfl | hc
    · have := hgroup c hc
      simp_all [wordChar]
    · decide
    · have := hnumber c hc
      simp_all [wordChar]
  rw [parseLine, AsmLine.text, dropComment_eq_self hcomment, splitWords_cons hgroup (by decide),
    splitWords_single hnumber (decimal_ne_nil m), parseWords_pbgroup h]

/-- A well-formed line is read back from its text. -/
theorem parseLine_text {l : AsmLine} (h : l.wf = true) : parseLine l.text = .line l := by
  cases l with
  | command i => cases i <;> decide
  | reserved => decide
  | pbgroup m => exact parseLine_pbgroup (by simpa [AsmLine.wf] using h)

theorem assembleTexts_text {l : AsmLine} (h : l.wf = true) (ts : List (List Char)) :
    assembleTexts (l.text :: ts) = (assembleTexts ts).map (l.words ++ ·) := by
  rw [assembleTexts, parseLine_text h]

theorem assembleTexts_lines {lines : List AsmLine} (h : ∀ l ∈ lines, l.wf = true) :
    assembleTexts (lines.map AsmLine.text) = some (lines.map AsmLine.words).flatten := by
  induction lines with
  | nil => rfl
  | cons l lines ih =>
    obtain ⟨hl, hlines⟩ := List.forall_mem_cons.mp h
    rw [List.map_cons, assembleTexts_text hl, ih hlines]
    rfl

theorem assembleTexts_comment (line comment : List Char) (ts : List (List Char)) :
    assembleTexts ((line ++ ';' :: comment) :: ts) = assembleTexts (line :: ts) := by
  rw [assembleTexts, assembleTexts, parseLine, parseLine, dropComment_comment]

/-- Settles O5: the lines are read back one by one, and a comment alone is an empty line. -/
theorem programTextAssembles : Obligations.ProgramTextAssembles := by
  refine ⟨rfl, rfl, rfl, rfl, fun _ => rfl, rfl, fun _ => rfl,
    fun lines h => ⟨assembleTexts_lines h, List.flatMap_def⟩,
    fun line comment ts => ⟨assembleTexts_comment line comment ts, ?_⟩⟩
  exact (assembleTexts_comment [] comment ts).trans rfl

end Sys2Proof.Machine
end

section
/-! What a command that ends with an error leaves (60_exceptions.md R73). -/

namespace Sys2Proof.Machine

/-- If `t` holds the response of a command that failed, it has the packed-boolean state of `s`, and the
response carries no value (30_encoding.md R39). -/
def failsCleanly (s t : State) : Prop :=
  t.fsm = .resp → t.rspStatus ≠ .ok →
    t.pbBuffer = s.pbBuffer ∧ t.pbRem = s.pbRem ∧ t.rspValue = 0 ∧ t.rspBool = false

theorem failsCleanly_raise {s t : State} (hbuf : t.pbBuffer = s.pbBuffer) (hrem : t.pbRem = s.pbRem)
    (e : Status) : failsCleanly s (t.raise e) := fun _ _ => ⟨hbuf, hrem, rfl, rfl⟩

theorem failsCleanly_of_ok {s t : State} (h : t.rspStatus = .ok) : failsCleanly s t :=
  fun _ hne => absurd h hne

theorem failsCleanly_of_running {s t : State} (h : t.fsm ≠ .resp) : failsCleanly s t :=
  fun hf => absurd hf h

/-- A failed refill has loaded nothing (41_packed_boolean.md R56). -/
theorem failsCleanly_pboolRefill {s : State} (hf : s.fsm = .pbWait) : failsCleanly s (pboolRefill s) := by
  rcases pboolRefill_cases s with ⟨-, h⟩ | ⟨a, rest, e, -, -, h⟩ | ⟨d, rest, -, h⟩ <;> rw [h]
  · exact failsCleanly_of_running (by simp [hf])
  · exact failsCleanly_raise rfl rfl e
  · exact failsCleanly_of_ok rfl

/-- The loop never touches the packed-boolean state, and ends with an error only by `raise`. -/
theorem failsCleanly_varintLoop {s : State} (hf : s.fsm = .viWait) :
    failsCleanly s (varintLoop s.answers s) := by
  refine varintLoop_induction (fun s t => s.fsm = .viWait → failsCleanly s t) ?waiting ?failed ?trips ?last
    ?more s hf
  case waiting => exact fun s _ hf => failsCleanly_of_running (by simp [hf])
  case failed => exact fun s a rest e _ _ _ => failsCleanly_raise rfl rfl e
  case trips => exact fun s b rest _ _ _ => failsCleanly_raise rfl rfl _
  case last => exact fun s b rest _ _ _ _ => failsCleanly_of_ok rfl
  case more => exact fun s b rest t _ _ _ ih hf => ih hf

theorem failsCleanly_runCommand {op : CmdWord} {s t : State} (hf : s.fsm = .idle)
    (ht : runCommand op s = .next t) : failsCleanly s t := by
  rcases runCommand_cases op hf with ⟨-, hs⟩ | ⟨-, -, hs⟩ | ⟨-, -, hs⟩ | ⟨-, hs⟩ | ⟨-, hs⟩ <;>
    cases hs.symm.trans ht
  · exact failsCleanly_varintLoop (s := varintStart s) rfl
  · exact failsCleanly_of_ok rfl
  · exact failsCleanly_pboolRefill (s := { s with fsm := .pbWait }) rfl
  · exact failsCleanly_of_ok rfl
  · exact failsCleanly_raise rfl rfl _

theorem failsCleanly_step {s t : State} (hf : s.fsm ≠ .resp) (ht : step s = .next t) :
    failsCleanly s t := by
  rcases step_cases s with ⟨-, hs⟩ | ⟨op, rest, -, hidle, -, -, hs⟩ | ⟨-, hwait, hs⟩ | ⟨-, hwait, hs⟩ |
    ⟨-, hresp, -⟩ | ⟨-, -, hs⟩
  · cases hs.symm.trans ht
    exact failsCleanly_of_ok rfl
  · exact failsCleanly_runCommand (s := { s.popTick with commands := rest }) hidle (hs.symm.trans ht)
  · cases hs.symm.trans ht
    exact failsCleanly_varintLoop (s := s.popTick) hwait
  · cases hs.symm.trans ht
    exact failsCleanly_pboolRefill (s := s.popTick) hwait
  · exact absurd hresp hf
  · cases hs.symm.trans ht
    exact failsCleanly_of_running hf

/-- A response is only taken from a block that holds one. -/
theorem received_of_step {s t : State} (hf : s.fsm ≠ .resp) (ht : step s = .next t) :
    t.received = s.received := by
  rcases step_cases s with ⟨-, hs⟩ | ⟨op, rest, -, hidle, -, -, hs⟩ | ⟨-, -, hs⟩ | ⟨-, -, hs⟩ |
    ⟨-, hresp, -⟩ | ⟨-, -, hs⟩
  · cases hs.symm.trans ht; rfl
  · obtain ⟨-, -, hreceived, -⟩ :=
      runCommand_others op (s := { s.popTick with commands := rest }) hidle (hs.symm.trans ht)
    exact hreceived
  · cases hs.symm.trans ht; exact varintLoop_received s.popTick
  · cases hs.symm.trans ht; exact pboolRefill_received s.popTick
  · exact absurd hresp hf
  · cases hs.symm.trans ht; rfl

/-- Settles O38: the error is clean, and the cursor only moves by bytes taken (`takesFrom_step`). -/
theorem errorLeavesPackedState : Obligations.ErrorLeavesPackedState := by
  intro s t ht hf hft hst
  obtain ⟨hbuf, hrem, hvalue, hbool⟩ := failsCleanly_step hf ht hft hst
  obtain ⟨taken, -, hpos⟩ := takesFrom_step ht
  exact ⟨hbuf, hrem, by omega, hvalue, hbool, received_of_step hf ht⟩

end Sys2Proof.Machine
end

section
/-! A group of packed booleans (30_encoding.md R43, R46): its booleans come one by one from its bytes, and the
`PBFIN` after them re-aligns. -/

namespace Sys2Proof.Machine

/-! ### Unread bits -/

/-- The unread bits of the buffer are the booleans of the group from boolean `j` on (10_state.md R14). -/
def unreadFrom (bs : List Byte) (j : Nat) (s : State) : Prop :=
  ∀ i < s.pbRem.val, s.pbBuffer.getLsbD i = packedBit bs (j + i)

theorem firstBit_of_unreadFrom {bs : List Byte} {j : Nat} {s : State} (h : unreadFrom bs j s)
    (hr : 0 < s.pbRem.val) : firstBit s.pbBuffer = packedBit bs j := h 0 hr

@[simp] theorem dropBit_getLsbD (buf : Byte) (i : Nat) : (dropBit buf).getLsbD i = buf.getLsbD (i + 1) := by
  rw [dropBit, BitVec.getLsbD_ushiftRight, Nat.add_comm]

theorem unreadFrom_pboolRead {bs : List Byte} {j : Nat} {s : State} (h : unreadFrom bs j s) :
    unreadFrom bs (j + 1) (pboolRead s) := by
  intro i hi
  rw [pboolRead_pbRem, decRem_val] at hi
  rw [pboolRead_pbBuffer, dropBit_getLsbD, h (i + 1) (by omega), Nat.add_assoc, Nat.add_comm 1]

/-- At a byte boundary the group's next byte holds the next eight booleans (30_encoding.md R43). -/
theorem unreadFrom_pboolLoad {j : Nat} (hj : j % 8 = 0) (bs : List Byte) (s : State) :
    unreadFrom bs j (pboolLoad (bs.getD (j / 8) 0) s) := by
  intro i hi
  have hi : i < 8 := hi
  rw [packedBit, show (j + i) / 8 = j / 8 by omega, show (j + i) % 8 = i by omega]
  rfl

/-! ### One `PBOOL` of a group -/

section Group

/-- Between two commands of a group on the bytes `bs`, after `j` booleans: the block holds what is left of
the byte in use, the source the bytes not taken, then `rest`; the group began at cursor `pos`. -/
structure InGroup (bs : List Byte) (rest : List SrcEvent) (pos j : Nat) (s : State) : Prop where
  pbRem_eq : s.pbRem.val = 8 * groupBytes j - j
  unread : unreadFrom bs j s
  answers_eq : s.answers = byteAnswers (bs.drop (groupBytes j)) ++ rest
  pos_eq : s.pos = pos + groupBytes j

variable {bs : List Byte} {rest : List SrcEvent} {pos j : Nat} {s : State}

/-- The read of boolean `j`, from a buffer that holds it, the bytes for `j + 1` booleans being taken. -/
theorem inGroup_pboolRead (hrem : s.pbRem.val = 8 * groupBytes (j + 1) - j) (hunread : unreadFrom bs j s)
    (ha : s.answers = byteAnswers (bs.drop (groupBytes (j + 1))) ++ rest)
    (hpos : s.pos = pos + groupBytes (j + 1)) :
    InGroup bs rest pos (j + 1) (pboolRead s) ∧ (pboolRead s).pending = ⟨.ok, 0, packedBit bs j⟩ := by
  have hpositive : 0 < s.pbRem.val := by rw [hrem]; unfold groupBytes; omega
  refine ⟨⟨?_, unreadFrom_pboolRead hunread, ha, hpos⟩, ?_⟩
  · rw [pboolRead_pbRem, decRem_val, hrem]; omega
  · rw [← firstBit_of_unreadFrom hunread hpositive]; rfl

/-- An empty buffer is a byte boundary: the next boolean needs the next byte (R43). -/
theorem groupBytes_of_boundary (h : 8 * groupBytes j - j = 0) :
    groupBytes j = j / 8 ∧ groupBytes (j + 1) = j / 8 + 1 ∧ j % 8 = 0 := by
  unfold groupBytes at *; omega

theorem groupBytes_of_inside (h : 8 * groupBytes j - j ≠ 0) : groupBytes (j + 1) = groupBytes j := by
  unfold groupBytes at *; omega

/-- At a byte boundary boolean `j` comes from the group's next byte. -/
theorem inGroup_pboolRefill (h : InGroup bs rest pos j s) (hr : s.pbRem = 0) (hj : j < 8 * bs.length) :
    InGroup bs rest pos (j + 1) (pboolRefill s) ∧ (pboolRefill s).fsm = .resp ∧
      (pboolRefill s).pending = ⟨.ok, 0, packedBit bs j⟩ := by
  obtain ⟨hrem, -, ha, hpos⟩ := h
  obtain ⟨hbytes, hnext, hmod⟩ := groupBytes_of_boundary (j := j) (by rw [← hrem, hr]; rfl)
  have hlt : j / 8 < bs.length := by omega
  have hbyte : s.answers =
      .answer ⟨0b00#2, bs.getD (j / 8) 0⟩ :: (byteAnswers (bs.drop (groupBytes (j + 1))) ++ rest) := by
    rw [ha, hbytes, hnext, List.drop_eq_getElem_cons hlt, List.getD_eq_getElem _ _ hlt]
    rfl
  have hcount : 8 = 8 * groupBytes (j + 1) - j := by omega
  rw [pboolRefill_byte hbyte]
  obtain ⟨hin, hpending⟩ := inGroup_pboolRead (pos := pos) hcount (unreadFrom_pboolLoad hmod bs
    { s with answers := byteAnswers (bs.drop (groupBytes (j + 1))) ++ rest, pos := s.pos + 1 })
    rfl (by rw [pboolLoad_pos, hpos, hbytes, hnext, Nat.add_assoc])
  exact ⟨hin, rfl, hpending⟩

/-- A `PBOOL` of a group responds with the group's next boolean, from the byte in use or from the next one. -/
theorem inGroup_execPbool (h : InGroup bs rest pos j s) (hf : s.fsm = .idle) (hj : j < 8 * bs.length) :
    ∃ t, execPbool s = .next t ∧ InGroup bs rest pos (j + 1) t ∧ t.fsm = .resp ∧
      t.pending = ⟨.ok, 0, packedBit bs j⟩ := by
  by_cases hr : s.pbRem = 0
  · exact ⟨_, execPbool_empty hf hr, inGroup_pboolRefill (s := { s with fsm := .pbWait }) { h with } hr hj⟩
  · obtain ⟨hrem, hunread, ha, hpos⟩ := h
    have hinside := groupBytes_of_inside (j := j) (by rw [← hrem]; exact Fin.val_ne_zero_iff.mpr hr)
    rw [← hinside] at hrem ha hpos
    obtain ⟨hin, hpending⟩ := inGroup_pboolRead hrem hunread ha hpos
    exact ⟨_, execPbool_unread hf hr, hin, rfl, hpending⟩

/-! ### The run of a group -/

/-- The responses to the first `j` booleans of the group. -/
def groupResponses (bs : List Byte) (j : Nat) : List Response :=
  (List.range j).map fun i => ⟨.ok, 0, packedBit bs i⟩

/-- Two steps for each `PBOOL`: after `j` of them the block is idle within the group, and the caller has the
first `j` booleans. -/
theorem run_group (hf : s.fsm = .idle) (ht : s.ticks = []) (hr : s.pbRem = 0)
    (ha : s.answers = byteAnswers bs ++ rest) :
    ∀ j ≤ 8 * bs.length, ∀ cs, s.commands = List.replicate j (encode .pbool) ++ cs →
      ∃ t : State, (∀ k, Host.Core.run Sys2Proof.core (2 * j + k) s = Host.Core.run Sys2Proof.core k t) ∧
        t.fsm = .idle ∧ t.ticks = [] ∧ t.commands = cs ∧
        t.received = s.received ++ groupResponses bs j ∧ InGroup bs rest s.pos j t := by
  intro j
  induction j with
  | zero =>
    intro _ cs hc
    refine ⟨s, fun k => by rw [Nat.mul_zero, Nat.zero_add], hf, ht, hc, (List.append_nil _).symm, ?_⟩
    have hzero : groupBytes 0 = 0 := rfl
    exact ⟨by simp [hr, hzero], by simp [unreadFrom, hr], by simp [ha, hzero], by simp [hzero]⟩
  | succ j ih =>
    intro hj cs hc
    obtain ⟨t, hrun, htf, htt, htc, htr, hin⟩ := ih (by omega) (encode .pbool :: cs)
      (by rw [hc, List.replicate_succ', List.append_assoc]; rfl)
    obtain ⟨u, hu, huin, huf, hup⟩ := inGroup_execPbool (s := { t with commands := cs }) { hin with } htf
      (by omega)
    obtain ⟨-, huc, hur, hut⟩ := runCommand_others (encode .pbool) (s := { t with commands := cs }) htf hu
    refine ⟨u.takeResponse, fun k => ?_, rfl, hut.trans htt, huc, ?_, { huin with }⟩
    · rw [show 2 * (j + 1) + k = 2 * j + (k + 2) by omega, hrun, run_two_steps k htf htt htc hu huf]
    · rw [State.takeResponse_received, hur, hup, htr, groupResponses, groupResponses, List.range_succ,
        List.map_append, List.append_assoc]
      rfl

end Group

/-- Settles O33: the group's first `j` booleans for every `j ≤ m`, and a `PBFIN` after all `m`. -/
theorem packedGroupDecodes : Obligations.PackedGroupDecodes := by
  intro s m bs cs rest hf ht hr _ hlen hc ha
  have hm : m ≤ 8 * bs.length := by rw [hlen]; unfold groupBytes; omega
  refine ⟨rfl, fun j hj => ?_, ?_⟩
  · have hsplit : s.commands =
        List.replicate j (encode .pbool) ++
          (List.replicate (m - j) (encode .pbool) ++ encode .pbfin :: cs) := by
      rw [hc, AsmLine.words, ← List.append_assoc, List.replicate_append_replicate,
        Nat.add_sub_cancel' hj, List.append_assoc]
      rfl
    obtain ⟨t, hrun, -, -, -, htr, hin⟩ := run_group hf ht hr ha j (hj.trans hm) _ hsplit
    exact ⟨t, hrun 0, htr, hin.pos_eq⟩
  · obtain ⟨t, hrun, htf, htt, htc, htr, hin⟩ := run_group hf ht hr ha m hm (encode .pbfin :: cs)
      (by rw [hc, AsmLine.words, List.append_assoc]; rfl)
    refine ⟨_, (hrun 2).trans (run_two_steps 0 htf htt htc (execPbfin_idle htf) rfl), ?_⟩
    have hdone : bs.drop (groupBytes m) = [] := by rw [← hlen, List.drop_length]
    refine ⟨?_, ?_, ?_, rfl, rfl, rfl⟩
    · rw [State.takeResponse_received, State.pending_respond]
      exact congrArg (· ++ [_]) htr
    · exact hin.pos_eq.trans (by rw [hlen])
    · exact hin.answers_eq.trans (by rw [hdone]; rfl)

end Sys2Proof.Machine
end

section
/-! `VARINT` at the transaction level (40_varint.md R47 to R53): every `VARINT` is a run of continuation bytes
and one turn that ends it or waits, and what that turn is decides its status, its value and its bytes. -/

namespace Sys2Proof.Machine

/-! ### Values (40_varint.md R48, R49) -/

/-- A position from `MAXB` groups on is no position of a `W`-bit value. -/
theorem truncW_add_mul_of_maxb_le {p : Params} {k : Nat} (h : maxb p ≤ k) (v g : Nat) :
    truncW p (v + g * 2 ^ (7 * k)) = truncW p v := by
  obtain ⟨q, hq⟩ := Nat.pow_dvd_pow 2 (maxb_le_iff.mp h)
  rw [truncW, hq, Nat.mul_left_comm, Nat.add_mul_mod_self_left, truncW]

/-- The last group merged onto what the run before it left, at the saturated index, gives the truncated
value (R49). -/
theorem truncW_spelled_or_groupTerm (p : Params) (pre : List Byte) (b : Byte) :
    truncW p (spelled pre) ||| groupTerm p (min pre.length (maxb p)) b = truncW p (spelled (pre ++ [b])) := by
  rw [spelled_append_singleton]
  rcases Nat.le_total pre.length (maxb p) with h | h
  · have hlow : truncW p (spelled pre) < 2 ^ (7 * pre.length) := (Nat.mod_le _ _).trans_lt (spelled_lt pre)
    rw [Nat.min_eq_left h, or_groupTerm hlow (truncW_lt p _), truncW, truncW, Nat.mod_add_mod, truncW]
  · rw [Nat.min_eq_right h, groupTerm_eq_zero (width_le_seven_maxb p), Nat.or_zero,
      truncW_add_mul_of_maxb_le h]

/-- The recursive definition shifts instead of indexing, and truncates at every level: the value is the same
(R48). -/
theorem recursiveDecode_eq {p : Params} (hp : p.wf) (bs : List Byte) (h : isVarInt bs = true) :
    recursiveDecode p bs = truncW p (spelled bs) := by
  induction bs with
  | nil => cases h
  | cons b bs ih =>
    cases hc : continues b with
    | false =>
      obtain rfl : bs = [] := by cases bs <;> simp_all [isVarInt]
      have hfits : (group b).toNat < 2 ^ p.width :=
        (group_lt b).trans_le (Nat.pow_le_pow_right (by decide) hp)
      simp [recursiveDecode, hc, truncW_of_lt hfits]
    | true =>
      have htail : isVarInt bs = true := by cases bs <;> simp_all [isVarInt]
      have hor : ∀ v, (group b).toNat ||| v * 2 ^ 7 = (group b).toNat + 2 ^ 7 * v := fun v => by
        rw [Nat.lor_comm, Nat.mul_comm, ← Nat.two_pow_add_eq_or_of_lt (group_lt b), Nat.add_comm]
      rw [recursiveDecode, if_pos hc, ih htail, hor, spelled_cons]
      exact (Nat.ModEq.refl _).add ((Nat.ModEq.refl _).mul (Nat.mod_modEq _ _))

/-- Under `GUARD` a last byte that does not trip leaves a value that fits (R51). -/
theorem spelled_lt_of_not_trips {p : Params} {pre : List Byte} {b : Byte} (hg : p.policy = .guard)
    (hlen : pre.length < maxb p) (ht : guardTrips p pre.length b = false) :
    spelled (pre ++ [b]) < 2 ^ p.width := by
  have hmaxb := seven_maxb_lt p
  rcases Nat.lt_or_ge (pre.length + 1) (maxb p) with h | h
  · have hlt := spelled_lt (pre ++ [b])
    rw [List.length_append, List.length_singleton] at hlt
    exact hlt.trans_le (Nat.pow_le_pow_right (by decide) (by omega))
  · have hk : pre.length = maxb p - 1 := by omega
    have hgroup : (group b).toNat < 2 ^ (p.width - 7 * pre.length) := by
      by_contra hcon
      refine Bool.false_ne_true (ht.symm.trans (guardTrips_iff.mpr ⟨hg, hk, .inr ?_⟩))
      rw [← hk]
      exact (Nat.div_pos (Nat.le_of_not_lt hcon) (Nat.two_pow_pos _)).ne'
    have hsplit : 2 ^ p.width = 2 ^ (p.width - 7 * pre.length) * 2 ^ (7 * pre.length) := by
      rw [← Nat.pow_add]; congr 1; omega
    rw [spelled_append_singleton, hsplit]
    calc spelled pre + (group b).toNat * 2 ^ (7 * pre.length)
        < ((group b).toNat + 1) * 2 ^ (7 * pre.length) := by
          rw [Nat.add_one_mul (group b).toNat, Nat.add_comm]; exact Nat.add_lt_add_left (spelled_lt pre) _
      _ ≤ _ := Nat.mul_le_mul_right _ hgroup

/-! ### A `VARINT` as a run of continuation bytes and one turn -/

theorem afterRun_start_viAcc (s : State) (pre : List Byte) (es : List SrcEvent) :
    (afterRun (varintStart s) pre es).viAcc = truncW s.params (spelled pre) := by simp [afterRun]

theorem afterRun_start_viK (s : State) (pre : List Byte) (es : List SrcEvent) :
    (afterRun (varintStart s) pre es).viK = min pre.length (maxb s.params) := by simp [afterRun]

section Turn

variable {s : State} {pre : List Byte} {b : Byte} {es rest : List SrcEvent}

/-- The run of continuation bytes from acceptance to the next turn. -/
theorem execVarint_run (hf : s.fsm = .idle) (hu : unfinished pre = true)
    (hg : s.params.policy = .guard → pre.length < maxb s.params) (ha : s.answers = byteAnswers pre ++ es) :
    exec .varint s = .next (varintLoop es (afterRun (varintStart s) pre es)) := by
  rw [exec_varint, execVarint_idle hf]
  exact congrArg Host.Outcome.next (varintLoop_run pre (varintStart s) es ha hu (Nat.two_pow_pos _)
    (Nat.two_pow_pos _) (Nat.zero_le _) fun hp => (Nat.zero_add _).trans_lt (hg hp))

theorem execVarint_failed {a : Answer} {e : Status} (hf : s.fsm = .idle) (hu : unfinished pre = true)
    (hg : s.params.policy = .guard → pre.length < maxb s.params)
    (ha : s.answers = byteAnswers pre ++ .answer a :: rest)
    (he : (fetched a = .eos ∧ e = .streamExhausted) ∨ (fetched a = .ioErr ∧ e = .ioError)) :
    ∃ t, exec .varint s = .next t ∧ varintEnded s t pre.length rest e 0 := by
  have hturn := varintLoop_failed (s := afterRun (varintStart s) pre (.answer a :: rest)) rfl he
  exact ⟨_, (execVarint_run hf hu hg ha).trans (congrArg Host.Outcome.next hturn), rfl⟩

theorem execVarint_trips (hf : s.fsm = .idle) (hu : unfinished pre = true)
    (hlen : pre.length < maxb s.params) (ha : s.answers = byteAnswers pre ++ .answer ⟨0b00#2, b⟩ :: rest)
    (ht : guardTrips s.params pre.length b = true) :
    ∃ t, exec .varint s = .next t ∧ varintEnded s t (pre.length + 1) rest .varintOverflow 0 := by
  have hturn := varintLoop_trips (s := afterRun (varintStart s) pre (.answer ⟨0b00#2, b⟩ :: rest)) rfl
    (by rw [afterRun_start_viK, Nat.min_eq_left hlen.le]; exact ht)
  exact ⟨_, (execVarint_run hf hu (fun _ => hlen) ha).trans (congrArg Host.Outcome.next hturn), rfl⟩

theorem execVarint_last (hf : s.fsm = .idle) (hu : unfinished pre = true)
    (hg : s.params.policy = .guard → pre.length < maxb s.params)
    (ha : s.answers = byteAnswers pre ++ .answer ⟨0b00#2, b⟩ :: rest) (hc : continues b = false)
    (ht : guardTrips s.params (min pre.length (maxb s.params)) b = false) :
    ∃ t, exec .varint s = .next t ∧
      varintEnded s t (pre.length + 1) rest .ok (truncW s.params (spelled (pre ++ [b]))) := by
  have hturn := varintLoop_last (s := afterRun (varintStart s) pre (.answer ⟨0b00#2, b⟩ :: rest)) rfl
    (by rw [afterRun_start_viK]; exact ht) hc
  refine ⟨_, (execVarint_run hf hu hg ha).trans (congrArg Host.Outcome.next hturn), ?_⟩
  rw [← truncW_spelled_or_groupTerm, ← afterRun_start_viAcc, ← afterRun_start_viK]
  rfl

end Turn

theorem byteAnswers_snoc_append (pre : List Byte) (b : Byte) (rest : List SrcEvent) :
    byteAnswers (pre ++ [b]) ++ rest = byteAnswers pre ++ .answer ⟨0b00#2, b⟩ :: rest := by
  rw [byteAnswers_append, List.append_assoc]; rfl

/-- Settles O19: under `WRAP` the last byte ends the `VARINT`, however long the run before it is. -/
theorem varintWrapValue : Obligations.VarintWrapValue := by
  intro s bs rest _ hw hf hform ha
  obtain ⟨pre, b, rfl, hu, hc⟩ := (isVarInt_iff bs).mp hform
  rw [byteAnswers_snoc_append] at ha
  rw [List.length_append]
  exact execVarint_last hf hu (by simp [hw]) ha hc (guardTrips_wrap hw _ b)

/-- Settles O21: the recursive definition gives the truncated value of O19. -/
theorem varintAgreesWithRecursion : Obligations.VarintAgreesWithRecursion := by
  intro s bs rest hp hw hf hform ha
  rw [recursiveDecode_eq hp bs hform]
  exact varintWrapValue s bs rest hp hw hf hform ha

/-! ### Everything an accepted `VARINT` can come to (R47 to R52) -/

/-- The source's answers begin with a longest run of continuation bytes, or under `GUARD` with `MAXB - 1` of
them. -/
theorem exists_continuation_run (p : Params) (es : List SrcEvent) : ∀ k, (p.policy = .guard → k < maxb p) →
    ∃ pre rest, es = byteAnswers pre ++ rest ∧ unfinished pre = true ∧
      (p.policy = .guard → k + pre.length < maxb p) ∧
      ∀ b tl, rest = .answer ⟨0b00#2, b⟩ :: tl → continues b = true →
        p.policy = .guard ∧ k + pre.length + 1 = maxb p := by
  induction es with
  | nil => exact fun k hk => ⟨[], [], rfl, rfl, hk, by simp⟩
  | cons e es ih =>
    intro k hk
    by_cases hmore : ∃ b, e = .answer ⟨0b00#2, b⟩ ∧ continues b = true ∧ (p.policy = .guard → k + 1 < maxb p)
    · obtain ⟨b, rfl, hc, hk'⟩ := hmore
      obtain ⟨pre, rest, rfl, hu, hg, hstop⟩ := ih (k + 1) hk'
      have hshift : k + (b :: pre).length = k + 1 + pre.length := by rw [List.length_cons]; omega
      exact ⟨b :: pre, rest, rfl, by rw [unfinished_cons, hc, hu]; rfl, hshift ▸ hg, hshift ▸ hstop⟩
    · refine ⟨[], e :: es, rfl, rfl, hk, fun b tl hb hc => ?_⟩
      obtain ⟨rfl, -⟩ := List.cons.inj hb
      have hlimit : ¬ (p.policy = .guard → k + 1 < maxb p) := fun h => hmore ⟨b, rfl, hc, h⟩
      obtain ⟨hguard, hle⟩ := Classical.not_imp.mp hlimit
      have := hk hguard
      exact ⟨hguard, by rw [List.length_nil]; omega⟩

/-- The turn a `VARINT` comes to after the continuation bytes `pre`, the source's further events being the
last argument, and what it makes of the state `s` in which the command was accepted. -/
inductive VarintTurn (s t : State) (pre : List Byte) : List SrcEvent → Prop
  /-- No answer: the command waits (20_memory.md R31). -/
  | waiting (es : List SrcEvent) (hwait : varintWaiting s t pre.length es.tail) : VarintTurn s t pre es
  /-- An answer that is no byte (60_exceptions.md R69, R70). -/
  | failed (a : Answer) (rest : List SrcEvent) (e : Status) (he : e = .streamExhausted ∨ e = .ioError)
      (hend : varintEnded s t pre.length rest e 0) : VarintTurn s t pre (.answer a :: rest)
  /-- The byte of index `MAXB - 1` under `GUARD`, out of bounds (40_varint.md R51). -/
  | trips (b : Byte) (rest : List SrcEvent) (hlen : pre.length + 1 = maxb s.params)
      (hend : varintEnded s t (pre.length + 1) rest .varintOverflow 0) :
      VarintTurn s t pre (.answer ⟨0b00#2, b⟩ :: rest)
  /-- The last byte of a VarInt (40_varint.md R47), whose value fits if the policy is `GUARD` (R51). -/
  | last (b : Byte) (rest : List SrcEvent) (hform : isVarInt (pre ++ [b]) = true)
      (hfits : s.params.policy = .guard → spelled (pre ++ [b]) < 2 ^ s.params.width)
      (hend : varintEnded s t (pre.length + 1) rest .ok (truncW s.params (spelled (pre ++ [b])))) :
      VarintTurn s t pre (.answer ⟨0b00#2, b⟩ :: rest)

/-- Every accepted `VARINT` is a run of continuation bytes, fewer than `MAXB` under `GUARD`, and one turn. -/
theorem execVarint_cases {s t : State} (hp : s.params.wf) (hf : s.fsm = .idle)
    (h : exec .varint s = .next t) :
    ∃ pre es, s.answers = byteAnswers pre ++ es ∧ unfinished pre = true ∧
      (s.params.policy = .guard → pre.length < maxb s.params) ∧ VarintTurn s t pre es := by
  obtain ⟨pre, es, ha, hu, hg, hstop⟩ :=
    exists_continuation_run s.params s.answers 0 fun _ => maxb_pos hp
  simp only [Nat.zero_add] at hg hstop
  have eq_of_next : ∀ {u}, exec .varint s = .next u → u = t := fun hu =>
    Host.Outcome.next.inj (hu.symm.trans h)
  refine ⟨pre, es, ha, hu, hg, ?_⟩
  rcases varintLoop_cases (afterRun (varintStart s) pre es) with ⟨-, hturn⟩ | ⟨a, rest, e, hes, he, -⟩ |
    ⟨b, rest, hes, ht, -⟩ | ⟨b, rest, hes, ht, hc, -⟩ | ⟨b, rest, hes, ht, hc, -⟩
  · obtain rfl := eq_of_next ((execVarint_run hf hu hg ha).trans (congrArg Host.Outcome.next hturn))
    exact .waiting es rfl
  all_goals obtain rfl : es = _ :: rest := hes
  · obtain ⟨u, hnext, hend⟩ := execVarint_failed hf hu hg ha he
    obtain rfl := eq_of_next hnext
    exact .failed a rest e (he.imp And.right And.right) hend
  all_goals replace ht : guardTrips s.params (min pre.length (maxb s.params)) b = _ :=
    afterRun_start_viK s pre _ ▸ ht
  · have hlen := hg (policy_of_trips ht)
    rw [Nat.min_eq_left hlen.le] at ht
    obtain ⟨-, hk, -⟩ := guardTrips_iff.mp ht
    obtain ⟨u, hnext, hend⟩ := execVarint_trips hf hu hlen ha ht
    obtain rfl := eq_of_next hnext
    exact .trips b rest (by omega) hend
  · obtain ⟨hguard, hlen⟩ := hstop b rest rfl hc
    exact absurd (guardTrips_iff.mpr ⟨hguard, by omega, .inl hc⟩) (Bool.not_eq_true _ ▸ ht)
  · obtain ⟨u, hnext, hend⟩ := execVarint_last hf hu hg ha hc ht
    obtain rfl := eq_of_next hnext
    refine .last b rest ((isVarInt_append_singleton pre b).mpr ⟨hu, hc⟩) (fun hguard => ?_) hend
    have hlen := hg hguard
    exact spelled_lt_of_not_trips hguard hlen (Nat.min_eq_left hlen.le ▸ ht)

/-- Settles O23, by the turn that ends the `VARINT`. -/
theorem varintBytesTaken : Obligations.VarintBytesTaken := by
  intro s t hp hf h hr
  obtain ⟨pre, es, ha, hu, -, hturn⟩ := execVarint_cases hp hf h
  cases hturn with
  | waiting _ hwait => rw [hwait] at hr; cases hr
  | failed a rest e he hend =>
    refine ⟨pre, _, ha, by rw [hend], ?_⟩
    rw [hend]
    rcases he with rfl | rfl <;> simp [hu]
  | trips b rest hlen hend =>
    rw [← byteAnswers_snoc_append] at ha
    refine ⟨pre ++ [b], rest, ha, ?_⟩
    rw [hend]
    simp [hlen]
  | last b rest hform _ hend =>
    rw [← byteAnswers_snoc_append] at ha
    refine ⟨pre ++ [b], rest, ha, ?_⟩
    rw [hend]
    simp [hform]

/-- Settles O20: the tripping byte, a VarInt that fits, and the converse by the turn that ends the
`VARINT`. -/
theorem varintGuardRule : Obligations.VarintGuardRule := by
  intro s hp hguard hf
  refine ⟨fun bs b rest hu hlen hbad ha => ?_, fun bs rest hform hlen hfits ha =>
    execVarint_of_fits hp hf hform hlen hfits ha, fun t h => ?_⟩
  · rw [byteAnswers_snoc_append] at ha
    rw [← hlen]
    exact execVarint_trips hf hu (by omega) ha (guardTrips_iff.mpr ⟨hguard, by omega, hbad⟩)
  · obtain ⟨pre, es, ha, hu, hg, hturn⟩ := execVarint_cases hp hf h
    have hlen := hg hguard
    cases hturn with
    | waiting _ hwait => rw [hwait]; exact ⟨Nat.add_le_add_left hlen.le _, nofun⟩
    | failed a rest e he hend =>
      rw [hend]
      exact ⟨Nat.add_le_add_left hlen.le _, fun _ hok => by rcases he with rfl | rfl <;> cases hok⟩
    | trips b rest _ hend => rw [hend]; exact ⟨Nat.add_le_add_left hlen _, nofun⟩
    | last b rest hform hfits hend =>
      rw [← byteAnswers_snoc_append] at ha
      rw [hend]
      exact ⟨Nat.add_le_add_left hlen _, fun _ _ =>
        ⟨pre ++ [b], hform, by rw [List.length_append]; exact hlen, hfits hguard, ha⟩⟩

/-! ### The packed-boolean state (R53) -/

/-- The loop does not read the packed-boolean state, and leaves what stands there. -/
theorem varintLoop_withPacked (buf : Byte) (r : Fin 9) (s : State) :
    varintLoop s.answers { s with pbBuffer := buf, pbRem := r } =
      { varintLoop s.answers s with pbBuffer := buf, pbRem := r } := by
  refine varintLoop_induction
    (fun s t => varintLoop s.answers { s with pbBuffer := buf, pbRem := r } =
      { t with pbBuffer := buf, pbRem := r })
    ?waiting ?failed ?trips ?last ?more s
  case waiting => exact fun s h => varintLoop_withheld (s := { s with pbBuffer := buf, pbRem := r }) h
  case failed =>
    exact fun s a rest e h he => varintLoop_failed (s := { s with pbBuffer := buf, pbRem := r }) h he
  case trips => exact fun s b rest h ht => varintLoop_trips (s := { s with pbBuffer := buf, pbRem := r }) h ht
  case last =>
    exact fun s b rest h ht hc => varintLoop_last (s := { s with pbBuffer := buf, pbRem := r }) h ht hc
  case more =>
    exact fun s b rest t h ht hc ih =>
      (varintLoop_continues (s := { s with pbBuffer := buf, pbRem := r }) h ht hc).trans ih

/-- Settles O24: an accepted `VARINT` is its loop, and a busy block does nothing. -/
theorem varintLeavesPackedState : Obligations.VarintLeavesPackedState := by
  intro s t h
  by_cases hf : s.fsm = .idle
  · obtain rfl := Host.Outcome.next.inj ((execVarint_idle hf).symm.trans h)
    obtain ⟨hbuf, hrem, hothers⟩ := varintLoop_frame (varintStart s)
    exact ⟨hbuf, hrem, hothers, fun buf r =>
      (execVarint_idle (s := { s with pbBuffer := buf, pbRem := r }) hf).trans
        (congrArg Host.Outcome.next (varintLoop_withPacked buf r (varintStart s)))⟩
  · obtain rfl := Host.Outcome.next.inj ((exec_busy hf .varint).symm.trans h)
    exact ⟨rfl, rfl, ⟨rfl, rfl, rfl, rfl⟩, fun buf r =>
      exec_busy (s := { s with pbBuffer := buf, pbRem := r }) hf .varint⟩

end Sys2Proof.Machine
end

section
/-! `VARINT` at the cycle level (42_control_fsm.md R64): an edge in `VI_WAIT` is a turn of the loop, so a run of
edges comes to what the loop makes of the answers transferred (R67); and the unbroken run of 40_varint.md
R54. -/

namespace Sys2Proof.Machine

/-! ### One edge in `VI_WAIT` (42_control_fsm.md R64) -/

section Edge

variable {p : Pins} {s : State} {b : Byte} (hr : p.rst = false) (hf : s.fsm = .viWait)

include hr hf

theorem clockEdge_viWait : clockEdge p s = edgeViWait p s := by simp [clockEdge, hr, hf]

theorem clockEdge_viWait_silent (hv : p.srcValid = false) : clockEdge p s = s := by
  simp [clockEdge_viWait hr hf, edgeViWait, hv]

theorem clockEdge_viWait_failed {e : Status} (hv : p.srcValid = true)
    (he : (fetched ⟨p.srcKind, p.srcData⟩ = .eos ∧ e = .streamExhausted) ∨
      (fetched ⟨p.srcKind, p.srcData⟩ = .ioErr ∧ e = .ioError)) :
    clockEdge p s = s.raise e := by
  rcases he with ⟨ha, rfl⟩ | ⟨ha, rfl⟩ <;>
    simp [clockEdge_viWait hr hf, edgeViWait, hv, ha, State.raise, State.respond]

theorem clockEdge_viWait_trips (hv : p.srcValid = true) (hb : fetched ⟨p.srcKind, p.srcData⟩ = .byte b)
    (ht : guardTrips s.params s.viK b = true) :
    clockEdge p s = { s with pos := s.pos + 1 }.raise .varintOverflow := by
  simp [clockEdge_viWait hr hf, edgeViWait, hv, hb, ht, State.raise, State.respond]

theorem clockEdge_viWait_continues (hv : p.srcValid = true)
    (hb : fetched ⟨p.srcKind, p.srcData⟩ = .byte b) (ht : guardTrips s.params s.viK b = false)
    (hc : continues b = true) :
    clockEdge p s =
      { s with
        pos := s.pos + 1, viAcc := s.viAcc ||| groupTerm s.params s.viK b,
        viK := nextIndex s.params s.viK } := by
  simp [clockEdge_viWait hr hf, edgeViWait, hv, hb, ht, hc]

theorem clockEdge_viWait_last (hv : p.srcValid = true) (hb : fetched ⟨p.srcKind, p.srcData⟩ = .byte b)
    (ht : guardTrips s.params s.viK b = false) (hc : continues b = false) :
    clockEdge p s =
      { s with pos := s.pos + 1 }.respond .ok (s.viAcc ||| groupTerm s.params s.viK b) false := by
  simp [clockEdge_viWait hr hf, edgeViWait, hv, hb, ht, hc, State.respond]

end Edge

/-! ### A run of edges in `VI_WAIT` is a run of the loop (R67) -/

theorem sameSeen.refl (s : State) : sameSeen s s :=
  ⟨⟨rfl, rfl, rfl, rfl, rfl, rfl, rfl⟩, ⟨rfl, fun _ => rfl⟩, fun _ => ⟨rfl, rfl⟩, fun _ => rfl⟩

/-- The edge at which an answer is transferred does what the loop's turn does with it: either both go on from
the same state, or the response is pending at both levels. -/
theorem varintLoop_edge {p : Pins} {s : State} (hr : p.rst = false) (hf : s.fsm = .viWait)
    (hv : p.srcValid = true) (es : List SrcEvent) :
    let s' := { s with answers := .answer ⟨p.srcKind, p.srcData⟩ :: es }
    ((clockEdge p s).fsm = .viWait ∧
      varintLoop s'.answers s' = varintLoop es { clockEdge p s with answers := es }) ∨
    ((clockEdge p s).fsm = .resp ∧
      sameSeen (varintLoop s'.answers s') { clockEdge p s with answers := es }) := by
  intro s'
  rcases varintLoop_cases s' with ⟨hw, -⟩ | ⟨a, rest, e, ha, he, hturn⟩ | ⟨b, rest, ha, ht, hturn⟩ |
    ⟨b, rest, ha, ht, hc, hturn⟩ | ⟨b, rest, ha, ht, hc, hturn⟩
  · cases hw
  all_goals
    obtain ⟨hhead, rfl⟩ := List.cons.inj ha
    replace hhead := SrcEvent.answer.inj hhead
    rw [hturn]
  · right
    rw [clockEdge_viWait_failed hr hf hv (hhead ▸ he)]
    exact ⟨rfl, .refl _⟩
  · right
    rw [clockEdge_viWait_trips hr hf hv (hhead ▸ fetched_byte b) ht]
    exact ⟨rfl, .refl _⟩
  · left
    rw [clockEdge_viWait_continues hr hf hv (hhead ▸ fetched_byte b) ht hc]
    exact ⟨hf, rfl⟩
  · right
    rw [clockEdge_viWait_last hr hf hv (hhead ▸ fetched_byte b) ht hc]
    exact ⟨rfl, ⟨rfl, rfl, rfl, rfl, rfl, rfl, rfl⟩, ⟨rfl, fun _ => rfl⟩, nofun, fun _ => rfl⟩

theorem transferredAt_viWait {p : Pins} {s : State} (hr : p.rst = false) (hf : s.fsm = .viWait) :
    transferredAt p s = if p.srcValid then [.answer ⟨p.srcKind, p.srcData⟩] else [] := by
  simp [transferredAt, outputs, hr, hf]

/-- A response that nobody takes stays, and no answer is transferred meanwhile (42_control_fsm.md R66). -/
theorem cycleRun_resp_held {s : State} (hf : s.fsm = .resp) :
    ∀ ps : List Pins, (∀ p ∈ ps, p.rst = false ∧ p.rspReady = false) →
      cycleRun ps s = s ∧ transferred ps s = [] := by
  intro ps
  induction ps with
  | nil => exact fun _ => ⟨rfl, rfl⟩
  | cons p ps ih =>
    intro hps
    obtain ⟨⟨hr, hrsp⟩, hps⟩ := List.forall_mem_cons.mp hps
    have hedge : clockEdge p s = s := by simp [clockEdge, edgeResp, hr, hf, hrsp]
    have hnone : transferredAt p s = [] := by simp [transferredAt, outputs, hf]
    rw [cycleRun, transferred, hedge, hnone]
    exact ih hps

/-- From `VI_WAIT`, the response not taken, the edges come to what the loop makes of the answers transferred,
whatever the delays between them. -/
theorem varintLoop_transferred : ∀ (ps : List Pins) (s : State), s.fsm = .viWait →
    (∀ p ∈ ps, p.rst = false ∧ p.rspReady = false) →
    sameSeen (varintLoop (transferred ps s) { s with answers := transferred ps s })
      { cycleRun ps s with answers := [] } := by
  intro ps
  induction ps with
  | nil => exact fun s _ _ => .refl _
  | cons p ps ih =>
    intro s hf hps
    obtain ⟨⟨hr, -⟩, hps⟩ := List.forall_mem_cons.mp hps
    rw [cycleRun, transferred, transferredAt_viWait hr hf]
    cases hv : p.srcValid with
    | false =>
      rw [clockEdge_viWait_silent hr hf hv]
      exact ih s hf hps
    | true =>
      rcases varintLoop_edge hr hf hv (transferred ps (clockEdge p s)) with ⟨hf', hloop⟩ | ⟨hf', hsame⟩
      · exact hloop.symm ▸ ih _ hf' hps
      · obtain ⟨hheld, hnone⟩ := cycleRun_resp_held hf' ps hps
        rw [hheld]
        rw [hnone] at hsame ⊢
        exact hsame

/-! ### A `VARINT` from its acceptance (R63) -/

/-- Edges from `IDLE` that accept a `VARINT` first come to what the edges after its acceptance come to. -/
theorem cycleRun_of_accepted_varint : ∀ (ps : List Pins) (s : State), s.fsm = .idle →
    (∀ p ∈ ps, p.rst = false ∧ p.rspReady = false) → accepted ps s = [encode .varint] →
    ∃ qs : List Pins, (∀ p ∈ qs, p.rst = false ∧ p.rspReady = false) ∧
      cycleRun ps s = cycleRun qs (varintStart s) ∧ transferred ps s = transferred qs (varintStart s) := by
  intro ps
  induction ps with
  | nil => intro s _ _ h; cases h
  | cons p ps ih =>
    intro s hf hps hacc
    obtain ⟨⟨hr, -⟩, hps⟩ := List.forall_mem_cons.mp hps
    have hnone : transferredAt p s = [] := by simp [transferredAt, outputs, hf]
    rw [cycleRun, transferred, hnone]
    cases hv : p.cmdValid with
    | false =>
      have hedge : clockEdge p s = s := by simp [clockEdge, edgeIdle, hr, hf, hv]
      have hacc' : accepted (p :: ps) s = accepted ps s := by simp [accepted, acceptedAt, hv, hedge]
      rw [hedge]
      exact ih s hf hps (hacc' ▸ hacc)
    | true =>
      have hacc' : accepted (p :: ps) s = p.cmdOp :: accepted ps (clockEdge p s) := by
        simp [accepted, acceptedAt, outputs, hv, hr, hf]
      obtain ⟨hop, -⟩ := List.cons.inj (hacc'.symm.trans hacc)
      have hedge : clockEdge p s = varintStart s := by
        simp [clockEdge, edgeIdle, varintStart, hr, hf, hv, hop, encode]
      exact ⟨ps, hps, by rw [hedge], by rw [hedge]; rfl⟩

/-- Settles O50: the edges come to what the transaction level comes to on the same bytes
(`varintLoop_transferred`), and there the value is that of O19. -/
theorem cycleLevelVarintValue : Obligations.CycleLevelVarintValue := by
  intro ps s bs hp hw hf hps hacc hform htr
  obtain ⟨qs, hqs, hrun, htr'⟩ := cycleRun_of_accepted_varint ps s hf hps hacc
  have hsame := varintLoop_transferred qs (varintStart s) rfl hqs
  obtain ⟨t, hnext, hend⟩ := varintWrapValue { s with answers := byteAnswers bs } bs [] hp hw hf hform
    (List.append_nil _).symm
  have hloop : varintLoop (byteAnswers bs) { varintStart s with answers := byteAnswers bs } = t :=
    Host.Outcome.next.inj
      ((execVarint_idle (s := { s with answers := byteAnswers bs }) hf).symm.trans hnext)
  rw [← htr', htr, ← hrun, hloop, hend] at hsame
  obtain ⟨⟨-, hfsm, hpos, -⟩, -, -, hresp⟩ := hsame
  obtain ⟨hstatus, hvalue, hbool⟩ := Response.mk.inj (hresp rfl)
  exact ⟨hfsm.symm, hstatus.symm, hvalue.symm, hbool.symm, hpos.symm⟩

/-! ### An unbroken run of continuation bytes (40_varint.md R54) -/

section Unbroken

variable {pins : Nat → Pins} {s : State} (hf : s.fsm = .viWait) (hr : ∀ n, (pins n).rst = false)
  (hbyte : ∀ n, (pins n).srcValid = true →
    (pins n).srcKind = 0b00#2 ∧ continues (pins n).srcData = true)

include hbyte

theorem fetched_continuation {n : Nat} (hv : (pins n).srcValid = true) :
    fetched ⟨(pins n).srcKind, (pins n).srcData⟩ = .byte (pins n).srcData := by
  rw [(hbyte n hv).1]; exact fetched_byte _

include hf hr

/-- Under `WRAP` every edge leaves the block waiting. -/
theorem cycleAt_wrap (hw : s.params.policy = .wrap) (n : Nat) :
    (cycleAt pins s n).fsm = .viWait ∧ (cycleAt pins s n).received = s.received ∧
      (cycleAt pins s n).params = s.params := by
  induction n with
  | zero => exact ⟨hf, rfl, rfl⟩
  | succ n ih =>
    obtain ⟨hfsm, hrecv, hparams⟩ := ih
    rw [cycleAt]
    cases hv : (pins n).srcValid with
    | false =>
      rw [clockEdge_viWait_silent (hr n) hfsm hv]
      exact ⟨hfsm, hrecv, hparams⟩
    | true =>
      rw [clockEdge_viWait_continues (hr n) hfsm hv (fetched_continuation hbyte hv)
        (guardTrips_wrap (hparams ▸ hw) _ _) (hbyte n hv).2]
      exact ⟨hfsm, hrecv, hparams⟩

/-- With a byte at every edge, each edge before index `MAXB - 1` takes one and goes on (R51). -/
theorem cycleAt_early (hk : s.viK = 0) (hv : ∀ n, (pins n).srcValid = true) :
    ∀ n < maxb s.params, (cycleAt pins s n).fsm = .viWait ∧ (cycleAt pins s n).viK = n ∧
      (cycleAt pins s n).pos = s.pos + n ∧ (cycleAt pins s n).params = s.params := by
  intro n
  induction n with
  | zero => exact fun _ => ⟨hf, hk, rfl, rfl⟩
  | succ n ih =>
    intro hn
    obtain ⟨hfsm, hviK, hpos, hparams⟩ := ih (by omega)
    rw [cycleAt, clockEdge_viWait_continues (hr n) hfsm (hv n) (fetched_continuation hbyte (hv n))
      (guardTrips_early (by rw [hviK, hparams]; exact hn) _) (hbyte n (hv n)).2]
    refine ⟨hfsm, ?_, congrArg (· + 1) hpos, hparams⟩
    rw [hviK, hparams]
    exact Nat.min_eq_left hn.le

/-- The byte of index `MAXB - 1` continues, so under `GUARD` it ends the command (R51). -/
theorem cycleAt_guard (hp : s.params.wf) (hg : s.params.policy = .guard) (hk : s.viK = 0)
    (hv : ∀ n, (pins n).srcValid = true) :
    (cycleAt pins s (maxb s.params)).fsm = .resp ∧
      (cycleAt pins s (maxb s.params)).rspStatus = .varintOverflow ∧
      (cycleAt pins s (maxb s.params)).pos = s.pos + maxb s.params := by
  obtain ⟨n, hn⟩ : ∃ n, maxb s.params = n + 1 := Nat.exists_eq_succ_of_ne_zero (maxb_pos hp).ne'
  obtain ⟨hfsm, hviK, hpos, hparams⟩ := cycleAt_early hf hr hbyte hk hv n (by omega)
  have htrips : guardTrips (cycleAt pins s n).params (cycleAt pins s n).viK (pins n).srcData = true := by
    rw [hviK, hparams]
    exact guardTrips_iff.mpr ⟨hg, by omega, .inl (hbyte n (hv n)).2⟩
  rw [hn, cycleAt, clockEdge_viWait_trips (hr n) hfsm (hv n) (fetched_continuation hbyte (hv n)) htrips]
  exact ⟨rfl, rfl, congrArg (· + 1) hpos⟩

end Unbroken

/-- Settles O27: waiting at every edge (`cycleAt_wrap`), or the end at the byte that trips
(`cycleAt_guard`). -/
theorem unbrokenRunHangs : Obligations.UnbrokenRunHangs := by
  intro pins s hp hf hr hbyte
  refine ⟨fun hw n => ?_, fun hg hk hv => cycleAt_guard hf hr hbyte hp hg hk hv⟩
  obtain ⟨hfsm, hrecv, -⟩ := cycleAt_wrap hf hr hbyte hw n
  exact ⟨hfsm, hrecv, by simp [outputs, hfsm], by simp [outputs, hfsm]⟩

end Sys2Proof.Machine
end

section
/-! `PBOOL` and `PBFIN` (41_packed_boolean.md R55, R58), the re-alignment by `PBFIN` (R59), and the bit order
of one byte whatever commands but `PBFIN` stand between its booleans (R57). -/

namespace Sys2Proof.Machine

/-! ### The two commands (R55, R58) -/

theorem fetched_failed_of_kind {a : Answer} {e : Status}
    (h : (a.kind = 0b01#2 ∧ e = .streamExhausted) ∨ ((a.kind = 0b10#2 ∨ a.kind = 0b11#2) ∧ e = .ioError)) :
    (fetched a = .eos ∧ e = .streamExhausted) ∨ (fetched a = .ioErr ∧ e = .ioError) := by
  rcases h with ⟨hk, rfl⟩ | ⟨hk | hk, rfl⟩ <;> simp [fetched, hk]

/-- A `PBOOL` on an empty buffer whose fetch delivers a byte reads that byte's bit 0. -/
theorem execPbool_byte {s : State} {d : Byte} {rest : List SrcEvent} (hf : s.fsm = .idle)
    (hr : s.pbRem = 0) (ha : s.answers = .answer ⟨0b00#2, d⟩ :: rest) :
    execPbool s = .next { s with
      answers := rest, pos := s.pos + 1, pbBuffer := d >>> 1, pbRem := 7, fsm := .resp,
      rspStatus := .ok, rspValue := 0, rspBool := d.getLsbD 0 } :=
  (execPbool_empty hf hr).trans
    (congrArg Host.Outcome.next (pboolRefill_byte (s := { s with fsm := .pbWait }) ha))

/-- A `PBOOL` on an empty buffer whose fetch fails ends with that error. -/
theorem execPbool_failed {s : State} {a : Answer} {rest : List SrcEvent} {e : Status} (hf : s.fsm = .idle)
    (hr : s.pbRem = 0) (ha : s.answers = .answer a :: rest)
    (he : (fetched a = .eos ∧ e = .streamExhausted) ∨ (fetched a = .ioErr ∧ e = .ioError)) :
    execPbool s = .next ({ s with answers := rest }.raise e) :=
  (execPbool_empty hf hr).trans
    (congrArg Host.Outcome.next (pboolRefill_failed (s := { s with fsm := .pbWait }) ha he))

/-- Settles O28: the read of an unread bit, and one equation per kind of answer to the refill. -/
theorem pboolRule : Obligations.PboolRule := by
  intro s hf
  refine ⟨fun hr => ⟨decRem s.pbRem, ?_, execPbool_unread hf hr⟩, fun a rest hr ha => ⟨?_, ?_, ?_⟩⟩
  · have : s.pbRem.val ≠ 0 := Fin.val_ne_zero_iff.mpr hr
    rw [decRem_val]; omega
  · obtain ⟨kind, d⟩ := a
    rintro rfl
    exact execPbool_byte hf hr ha
  · exact fun hk => execPbool_failed hf hr ha (fetched_failed_of_kind (.inl ⟨hk, rfl⟩))
  · exact fun hk => execPbool_failed hf hr ha (fetched_failed_of_kind (.inr ⟨hk, rfl⟩))

/-- Settles O30: an accepted `PBFIN` is its write of `pb_rem` and its response. -/
theorem pbfinRule : Obligations.PbfinRule := fun _ hf => execPbfin_idle hf

/-! ### `PBFIN` and the next refill (R59) -/

/-- The block and the caller after at least one `PBFIN`: the responses `rs` were taken, the words `cs` are
left. -/
def State.afterPbfin (s : State) (rs : List Response) (cs : List CmdWord) : State :=
  { s with
    commands := cs, received := s.received ++ rs, pbRem := 0, fsm := .idle,
    rspStatus := .ok, rspValue := 0, rspBool := false }

/-- The two steps of one `PBFIN`. -/
theorem run_pbfin {s : State} {cs : List CmdWord} (k : Nat) (hf : s.fsm = .idle) (ht : s.ticks = [])
    (hc : s.commands = encode .pbfin :: cs) :
    Host.Core.run Sys2Proof.core (k + 2) s =
      Host.Core.run Sys2Proof.core k (s.afterPbfin [⟨.ok, 0, false⟩] cs) :=
  run_two_steps k hf ht hc (execPbfin_idle hf) rfl

theorem afterPbfin_afterPbfin (s : State) (rs rs' : List Response) (cs cs' : List CmdWord) :
    (s.afterPbfin rs cs).afterPbfin rs' cs' = s.afterPbfin (rs ++ rs') cs' := by
  simp [State.afterPbfin]

/-- Two steps for each `PBFIN`. -/
theorem run_pbfins (n k : Nat) (cs : List CmdWord) : ∀ s : State, s.fsm = .idle → s.ticks = [] →
    s.commands = List.replicate (n + 1) (encode .pbfin) ++ cs →
    Host.Core.run Sys2Proof.core (k + 2 * (n + 1)) s =
      Host.Core.run Sys2Proof.core k (s.afterPbfin (List.replicate (n + 1) ⟨.ok, 0, false⟩) cs) := by
  induction n with
  | zero => exact fun s hf ht hc => run_pbfin k hf ht hc
  | succ n ih =>
    intro s hf ht hc
    exact (run_pbfin (k + 2 * (n + 1)) hf ht hc).trans
      ((ih (s.afterPbfin _ _) rfl ht rfl).trans
        (congrArg _ (afterPbfin_afterPbfin s [_] (List.replicate (n + 1) _) _ cs)))

/-- Settles O31: the `PBFIN`s leave the buffer empty (`run_pbfins`), so the `PBOOL` reads the next byte. -/
theorem pbfinForcesRefill : Obligations.PbfinForcesRefill := by
  intro s n d cs rest hf ht hn hc ha
  obtain ⟨m, rfl⟩ : ∃ m, n = m + 1 := ⟨n - 1, by omega⟩
  have hpbfins : Host.Core.run Sys2Proof.core (2 * (m + 1 + 1)) s =
      Host.Core.run Sys2Proof.core 2
        (s.afterPbfin (List.replicate (m + 1) ⟨.ok, 0, false⟩) (encode .pbool :: cs)) := by
    rw [show 2 * (m + 1 + 1) = 2 + 2 * (m + 1) by omega]
    exact run_pbfins m 2 _ s hf ht hc
  have hpbool := run_two_steps
    (s := s.afterPbfin (List.replicate (m + 1) ⟨.ok, 0, false⟩) (encode .pbool :: cs)) 0 rfl ht rfl
    (execPbool_byte (rest := rest) rfl rfl ha) rfl
  exact ⟨_, hpbfins.trans hpbool, rfl, rfl, rfl, rfl, rfl, rfl, rfl⟩

/-! ### Steps and runs without reset -/

/-- The loop of a `VARINT` waits or ends in a response. -/
theorem varintLoop_fsm {s : State} (hf : s.fsm = .viWait) :
    (varintLoop s.answers s).fsm = .viWait ∨ (varintLoop s.answers s).fsm = .resp := by
  refine varintLoop_induction (fun s t => s.fsm = .viWait → t.fsm = .viWait ∨ t.fsm = .resp)
    ?waiting ?failed ?trips ?last ?more s hf
  case waiting => exact fun s _ hf => .inl hf
  case failed => exact fun s a rest e _ _ _ => .inr rfl
  case trips => exact fun s b rest _ _ _ => .inr rfl
  case last => exact fun s b rest _ _ _ _ => .inr rfl
  case more => exact fun s b rest t _ _ _ ih hf => ih hf

/-- Without reset an idle block accepts the next word or does nothing. -/
theorem step_idle_cases {s : State} (hf : s.fsm = .idle) (hr : s.tick.rst = false) :
    step s = .next s.popTick ∨ ∃ op rest, s.commands = op :: rest ∧
      step s = runCommand op { s.popTick with commands := rest } := by
  cases hv : s.tick.cmdValid with
  | false => exact .inl (step_hold hr (.inl ⟨hf, .inr hv⟩))
  | true =>
    cases hc : s.commands with
    | nil => exact .inl (step_hold hr (.inl ⟨hf, .inl hc⟩))
    | cons op rest => exact .inr ⟨op, rest, rfl, step_accept hf hr hv hc⟩

theorem step_ticks {s t : State} (ht : step s = .next t) : t.ticks = s.ticks.tail := by
  rcases step_cases s with ⟨-, hs⟩ | ⟨op, rest, -, hf, -, -, hs⟩ | ⟨-, -, hs⟩ | ⟨-, -, hs⟩ |
    ⟨-, -, -, hs⟩ | ⟨-, -, hs⟩
  · cases hs.symm.trans ht; rfl
  · obtain ⟨-, -, -, hticks⟩ :=
      runCommand_others op (s := { s.popTick with commands := rest }) hf (hs.symm.trans ht)
    exact hticks
  · cases hs.symm.trans ht
    obtain ⟨-, -, -, -, -, hticks⟩ := varintLoop_frame s.popTick
    exact hticks
  · cases hs.symm.trans ht
    obtain ⟨-, -, -, hticks⟩ := pboolRefill_others s.popTick
    exact hticks
  · cases hs.symm.trans ht; rfl
  · cases hs.symm.trans ht; rfl

theorem tick_rst_of_no_reset {s : State} (h : ∀ x ∈ s.ticks, x.rst = false) : s.tick.rst = false := by
  cases ht : s.ticks with
  | nil => simp [ht]
  | cons x xs => simpa [State.tick, ht] using h x (by simp [ht])

/-- The induction over a run without reset, packaged once: what every such step keeps, the run keeps. -/
theorem run_keeps (P : State → Prop)
    (hstep : ∀ s t, P s → s.tick.rst = false → step s = .next t → P t) (k : Nat) :
    ∀ s t : State, P s → (∀ x ∈ s.ticks, x.rst = false) →
      Host.Core.run Sys2Proof.core k s = .next t → P t := by
  induction k with
  | zero => intro s t hs _ h; cases h; exact hs
  | succ k ih =>
    intro s t hs hticks h
    obtain ⟨u, hu, -⟩ := stepAlwaysGoesOn s
    rw [run_succ_of_step hu] at h
    refine ih u t (hstep s u hs (tick_rst_of_no_reset hticks) hu) (fun x hx => ?_) h
    rw [step_ticks hu] at hx
    exact hticks x (List.mem_of_mem_tail hx)

/-! ### The booleans among the responses -/

/-- The booleans that the `PBOOL`s among the words were answered with. -/
def pboolBits (words : List CmdWord) (rs : List Response) : List Bool :=
  ((words.zip rs).filter fun x => x.1 = encode .pbool).map fun x => x.2.bool

theorem pboolBits_append {words : List CmdWord} {rs : List Response} (h : rs.length = words.length)
    (op : CmdWord) (r : Response) :
    pboolBits (words ++ [op]) (rs ++ [r]) =
      pboolBits words rs ++ if op = encode .pbool then [r.bool] else [] := by
  rw [pboolBits, List.zip_append h.symm, List.filter_append, List.map_append, pboolBits]
  by_cases hop : op = encode .pbool <;> simp [hop]

/-- The words `done` are answered, after the responses `old`: the booleans of the `PBOOL`s among them are the
bits of `d` from bit 0 up, and the block holds the bits of `d` after those. -/
structure BitsRead (d : Byte) (old : List Response) (done : List CmdWord) (s : State) : Prop where
  answered : ∃ rs, s.received = old ++ rs ∧ rs.length = done.length ∧
    pboolBits done rs = (List.range (done.count (encode .pbool))).map fun i => d.getLsbD i
  pbBuffer_eq : s.pbBuffer = d >>> done.count (encode .pbool)
  pbRem_eq : s.pbRem.val + done.count (encode .pbool) = 8

section BitOrder

variable {d : Byte} {old : List Response} {done : List CmdWord} {s t : State}

/-- A byte just loaded is all there to read. -/
theorem bitsRead_pboolLoad (h : s.received = old) : BitsRead d old [] (pboolLoad d s) :=
  ⟨⟨[], by simp [h], rfl, rfl⟩, by simp, rfl⟩

/-- Only the packed-boolean registers and the responses taken matter. -/
theorem BitsRead.of_eq (h : BitsRead d old done s) (hbuf : t.pbBuffer = s.pbBuffer)
    (hrem : t.pbRem = s.pbRem) (hrecv : t.received = s.received) : BitsRead d old done t := by
  obtain ⟨hanswered, hbuffer, hcount⟩ := h
  exact ⟨hrecv ▸ hanswered, hbuf.trans hbuffer, hrem ▸ hcount⟩

/-- The response to a `PBOOL` is the next bit of the byte. -/
theorem BitsRead.pboolRead (h : BitsRead d old done s) (hr : s.pbRem ≠ 0) :
    BitsRead d old (done ++ [encode .pbool]) (pboolRead s).takeResponse := by
  obtain ⟨⟨rs, hrecv, hlen, hbits⟩, hbuffer, hcount⟩ := h
  have hcount' : (done ++ [encode .pbool]).count (encode .pbool) = done.count (encode .pbool) + 1 := by
    simp
  have hbit : firstBit s.pbBuffer = d.getLsbD (done.count (encode .pbool)) := by
    rw [firstBit, hbuffer, BitVec.getLsbD_ushiftRight, Nat.add_zero]
  refine ⟨⟨rs ++ [⟨.ok, 0, firstBit s.pbBuffer⟩], ?_, by simp [hlen], ?_⟩, ?_, ?_⟩
  · rw [← List.append_assoc, ← hrecv]; rfl
  · rw [pboolBits_append hlen, hbits, hcount', List.range_succ, List.map_append, if_pos rfl, hbit]; rfl
  · rw [hcount', BitVec.shiftRight_add, ← hbuffer]; rfl
  · have : s.pbRem.val ≠ 0 := Fin.val_ne_zero_iff.mpr hr
    rw [hcount', State.takeResponse_pbRem, pboolRead_pbRem, decRem_val]; omega

/-- A response to another word leaves the bits alone. -/
theorem BitsRead.takeResponse {op : CmdWord} (h : BitsRead d old done s) (hop : op ≠ encode .pbool) :
    BitsRead d old (done ++ [op]) s.takeResponse := by
  obtain ⟨⟨rs, hrecv, hlen, hbits⟩, hbuffer, hcount⟩ := h
  have hcount' : (done ++ [op]).count (encode .pbool) = done.count (encode .pbool) := by simp [hop]
  refine ⟨⟨rs ++ [s.pending], by simp [hrecv], by simp [hlen], ?_⟩, hcount' ▸ hbuffer, hcount' ▸ hcount⟩
  rw [pboolBits_append hlen, hbits, hcount', if_neg hop, List.append_nil]

/-! ### The run from the refill on (R57) -/

/-- Where a run on the words `PBOOL :: cmds` can stand, when the source gives `d` first: the refill has not
been answered; or a block that is idle, runs a `VARINT` or holds a response, with the bits in order. -/
inductive ByteRun (d : Byte) (old : List Response) (cmds : List CmdWord) (s : State) : Prop
  | refilling (n : Nat) (rest : List SrcEvent)
      (standing : (s.fsm = .idle ∧ s.commands = encode .pbool :: cmds) ∨ (s.fsm = .pbWait ∧ s.commands = cmds))
      (received : s.received = old) (pbRem : s.pbRem = 0)
      (answers : s.answers = List.replicate n .withhold ++ (byteAnswers [d] ++ rest))
  | idle (done : List CmdWord) (fsm : s.fsm = .idle) (words : done ++ s.commands = encode .pbool :: cmds)
      (bits : BitsRead d old done s)
  | varint (done : List CmdWord) (fsm : s.fsm = .viWait)
      (words : done ++ encode .varint :: s.commands = encode .pbool :: cmds) (bits : BitsRead d old done s)
  | resp (done : List CmdWord) (fsm : s.fsm = .resp) (words : done ++ s.commands = encode .pbool :: cmds)
      (bits : BitsRead d old done s.takeResponse)

variable {cmds : List CmdWord}

/-- A fetch of the refill byte uses up one delay, or reads bit 0 of the byte. -/
theorem byteRun_pboolRefill {n : Nat} {rest : List SrcEvent} (hf : s.fsm = .pbWait)
    (hc : s.commands = cmds) (hrecv : s.received = old) (hr : s.pbRem = 0)
    (ha : s.answers = List.replicate n .withhold ++ (byteAnswers [d] ++ rest)) :
    ByteRun d old cmds (pboolRefill s) := by
  cases n with
  | zero =>
    rw [pboolRefill_byte (rest := rest) ha]
    exact .resp [encode .pbool] rfl (congrArg _ hc)
      ((bitsRead_pboolLoad (d := d) (s := { s with answers := rest, pos := s.pos + 1 }) hrecv).pboolRead
        (by simp))
  | succ n =>
    rw [pboolRefill_withheld (by rw [ha]; rfl)]
    exact .refilling n rest (.inr ⟨hf, hc⟩) hrecv hr (by rw [ha]; rfl)

/-- A `VARINT` between the booleans leaves them alone (R61). -/
theorem byteRun_varintLoop (hf : s.fsm = .viWait)
    (hw : done ++ encode .varint :: s.commands = encode .pbool :: cmds) (h : BitsRead d old done s) :
    ByteRun d old cmds (varintLoop s.answers s) := by
  obtain ⟨hbuf, hrem, -, hcommands, hrecv, -⟩ := varintLoop_frame s
  have hbits : BitsRead d old done (varintLoop s.answers s) := h.of_eq hbuf hrem hrecv
  rcases varintLoop_fsm hf with hf' | hf'
  · exact .varint done hf' (by rw [hcommands, hw]) hbits
  · exact .resp (done ++ [encode .varint]) hf' (by rw [hcommands, List.append_assoc]; exact hw)
      (hbits.takeResponse (by decide))

/-- A word accepted while the byte is in use is no `PBFIN`, and no `PBOOL` beyond the eighth. -/
theorem byteRun_runCommand {op : CmdWord} (hno : encode .pbfin ∉ encode .pbool :: cmds)
    (hcount : (encode .pbool :: cmds).count (encode .pbool) ≤ 8) (hf : s.fsm = .idle)
    (hw : done ++ op :: s.commands = encode .pbool :: cmds) (h : BitsRead d old done s)
    (ht : runCommand op s = .next t) : ByteRun d old cmds t := by
  have hw' : (done ++ [op]) ++ s.commands = encode .pbool :: cmds := by rw [List.append_assoc]; exact hw
  rcases runCommand_cases op hf with ⟨hop, hs⟩ | ⟨hop, hr, hs⟩ | ⟨hop, hr, -⟩ | ⟨hop, -⟩ | ⟨hop, hs⟩
  · obtain rfl : op = encode .varint := hop
    cases hs.symm.trans ht
    exact byteRun_varintLoop (s := varintStart s) rfl hw (h.of_eq rfl rfl rfl)
  · obtain rfl : op = encode .pbool := hop
    cases hs.symm.trans ht
    exact .resp _ rfl hw' (h.pboolRead hr)
  · obtain rfl : op = encode .pbool := hop
    have hdone := h.pbRem_eq
    rw [hr, Fin.val_zero, Nat.zero_add] at hdone
    rw [← hw, List.count_append, List.count_cons_self, hdone] at hcount
    omega
  · obtain rfl : op = encode .pbfin := hop
    exact absurd (hw ▸ List.mem_append_right done List.mem_cons_self) hno
  · cases hs.symm.trans ht
    have hbits : BitsRead d old done (s.raise .illegalCommand) := h.of_eq rfl rfl rfl
    exact .resp _ rfl hw' (hbits.takeResponse (by subst hop; decide))

/-- A word accepted while the refill is not answered is the first `PBOOL`, and asks for the byte. -/
theorem byteRun_first {n : Nat} {rest : List SrcEvent} (hf : s.fsm = .idle) (hc : s.commands = cmds)
    (hrecv : s.received = old) (hr : s.pbRem = 0)
    (ha : s.answers = List.replicate n .withhold ++ (byteAnswers [d] ++ rest))
    (ht : runCommand (encode .pbool) s = .next t) : ByteRun d old cmds t := by
  obtain rfl := Host.Outcome.next.inj ((execPbool_empty hf hr).symm.trans ht)
  exact byteRun_pboolRefill (s := { s with fsm := .pbWait }) rfl hc hrecv hr ha

/-- A step that does nothing. -/
theorem ByteRun.popTick (h : ByteRun d old cmds s) : ByteRun d old cmds s.popTick := by
  cases h with
  | refilling n rest hw hrecv hr ha => exact .refilling n rest hw hrecv hr ha
  | idle done hf hw hbits => exact .idle done hf hw (hbits.of_eq rfl rfl rfl)
  | varint done hf hw hbits => exact .varint done hf hw (hbits.of_eq rfl rfl rfl)
  | resp done hf hw hbits => exact .resp done hf hw (hbits.of_eq rfl rfl rfl)

/-- A step without reset keeps the bits in order. -/
theorem byteRun_step (hno : encode .pbfin ∉ encode .pbool :: cmds)
    (hcount : (encode .pbool :: cmds).count (encode .pbool) ≤ 8) (s t : State) (h : ByteRun d old cmds s)
    (hrst : s.tick.rst = false) (ht : step s = .next t) : ByteRun d old cmds t := by
  have hhold (hs : step s = .next s.popTick) : ByteRun d old cmds t :=
    Host.Outcome.next.inj (hs.symm.trans ht) ▸ h.popTick
  cases h with
  | refilling n rest hw hrecv hr ha =>
    rcases hw with ⟨hf, hc⟩ | ⟨hf, hc⟩
    · rcases step_idle_cases hf hrst with hs | ⟨op, words, hc', hs⟩
      · exact hhold hs
      · obtain ⟨rfl, rfl⟩ := List.cons.inj (hc'.symm.trans hc)
        exact byteRun_first (s := { s.popTick with commands := words }) hf rfl hrecv hr ha (hs.symm.trans ht)
    · obtain rfl := Host.Outcome.next.inj ((step_pboolPoll hf hrst).symm.trans ht)
      exact byteRun_pboolRefill (s := s.popTick) hf hc hrecv hr ha
  | idle done hf hw hbits =>
    rcases step_idle_cases hf hrst with hs | ⟨op, words, hc, hs⟩
    · exact hhold hs
    · exact byteRun_runCommand (s := { s.popTick with commands := words }) hno hcount hf
        (hc ▸ hw) (hbits.of_eq rfl rfl rfl) (hs.symm.trans ht)
  | varint done hf hw hbits =>
    obtain rfl := Host.Outcome.next.inj ((step_varintPoll hf hrst).symm.trans ht)
    exact byteRun_varintLoop (s := s.popTick) hf hw (hbits.of_eq rfl rfl rfl)
  | resp done hf hw hbits =>
    cases hv : s.tick.rspReady with
    | false => exact hhold (step_hold hrst (.inr ⟨hf, hv⟩))
    | true =>
      obtain rfl := Host.Outcome.next.inj ((step_deliver hf hrst hv).symm.trans ht)
      exact .idle done rfl hw (hbits.of_eq rfl rfl rfl)

/-- An idle block with no word left has answered them all. -/
theorem ByteRun.all_answered (h : ByteRun d old cmds s) (hf : s.fsm = .idle) (hc : s.commands = []) :
    BitsRead d old (encode .pbool :: cmds) s := by
  cases h with
  | refilling n rest hw _ _ _ =>
    rcases hw with ⟨-, hc'⟩ | ⟨hf', -⟩
    · cases hc.symm.trans hc'
    · cases hf.symm.trans hf'
  | idle done _ hw hbits =>
    rw [hc, List.append_nil] at hw
    exact hw ▸ hbits
  | varint done hf' _ _ => cases hf.symm.trans hf'
  | resp done hf' _ _ => cases hf.symm.trans hf'

end BitOrder

/-- Settles O32: a run without reset keeps the bits in order (`byteRun_step`), and at its end every word is
answered. -/
theorem packedBitOrder : Obligations.PackedBitOrder := by
  intro s t d rest cmds j k n hf hticks hr ha hc hno hj hle hrun htf htc
  have hno' : encode .pbfin ∉ encode .pbool :: cmds := by
    rintro (_ | ⟨_, hmem⟩)
    exact hno _ hmem rfl
  have hcount : (encode .pbool :: cmds).count (encode .pbool) = j + 1 := by rw [List.count_cons_self, hj]
  have hstart : ByteRun d s.received cmds s := .refilling n rest (.inl ⟨hf, hc⟩) rfl hr ha
  have hend : ByteRun d s.received cmds t :=
    run_keeps _ (byteRun_step hno' (by omega)) k s t hstart hticks hrun
  obtain ⟨⟨rs, hrecv, hlen, hbits⟩, hbuffer, hrem⟩ := hend.all_answered htf htc
  rw [hcount] at hbits hbuffer hrem
  rw [hc]
  exact ⟨hbuffer, by omega, rs, hrecv, hlen, hbits⟩

end Sys2Proof.Machine
end

section
/-! The control FSM's tables (42_control_fsm.md R63 to R66): the edge in `IDLE`, in `VI_WAIT`, in `PB_WAIT` and
in `RESP`, row by row, and the transaction-level steps that run no command. -/

namespace Sys2Proof.Machine

/-! ### The edge in `IDLE` (R63): each row is what its command starts with -/

section IdleEdge

variable {p : Pins} {s : State} (hr : p.rst = false) (hf : s.fsm = .idle)

include hr hf

theorem clockEdge_idle : clockEdge p s = edgeIdle p s := by simp [clockEdge, hr, hf]

theorem clockEdge_idle_silent (hv : p.cmdValid = false) : clockEdge p s = s := by
  simp [clockEdge_idle hr hf, edgeIdle, hv]

theorem clockEdge_idle_varint (hv : p.cmdValid = true) (hop : p.cmdOp = 0b00#2) :
    clockEdge p s = varintStart s := by
  simp [clockEdge_idle hr hf, edgeIdle, hv, hop, varintStart]

theorem clockEdge_idle_refill (hv : p.cmdValid = true) (hop : p.cmdOp = 0b01#2) (hrem : s.pbRem = 0) :
    clockEdge p s = { s with fsm := .pbWait } := by
  simp [clockEdge_idle hr hf, edgeIdle, hv, hop, hrem]

theorem clockEdge_idle_read (hv : p.cmdValid = true) (hop : p.cmdOp = 0b01#2) (hrem : s.pbRem ≠ 0) :
    clockEdge p s = pboolRead s := by
  simp [clockEdge_idle hr hf, edgeIdle, hv, hop, hrem, pboolRead, State.respond]

theorem clockEdge_idle_pbfin (hv : p.cmdValid = true) (hop : p.cmdOp = 0b10#2) :
    clockEdge p s = { s with pbRem := 0 }.respond .ok 0 false := by
  simp [clockEdge_idle hr hf, edgeIdle, hv, hop, State.respond]

theorem clockEdge_idle_reserved (hv : p.cmdValid = true) (hop : p.cmdOp = 0b11#2) :
    clockEdge p s = s.raise .illegalCommand := by
  simp [clockEdge_idle hr hf, edgeIdle, hv, hop, State.raise, State.respond]

end IdleEdge

/-- Settles O42: the rows, one equation each. -/
theorem idleEdgeRows : Obligations.IdleEdgeRows := by
  refine fun s p hf hr => ⟨clockEdge_idle_silent hr hf, fun hv =>
    ⟨clockEdge_idle_varint hr hf hv, clockEdge_idle_refill hr hf hv,
      fun hop hrem => ⟨decRem s.pbRem, ?_, clockEdge_idle_read hr hf hv hop hrem⟩,
      clockEdge_idle_pbfin hr hf hv, clockEdge_idle_reserved hr hf hv⟩⟩
  have hpos : s.pbRem.val ≠ 0 := Fin.val_ne_zero_iff.mpr hrem
  rw [decRem_val]
  omega

/-! ### The edge in `VI_WAIT` (R64) -/

theorem fetched_byte_of_kind {k : BitVec 2} (hk : k = 0b00#2) (d : Byte) : fetched ⟨k, d⟩ = .byte d := by
  rw [hk, fetched_byte]

theorem continues_eq_false_iff (b : Byte) : continues b = false ↔ b.toNat < 128 := by
  rw [Bool.eq_false_iff, ne_eq, continues_iff, Nat.not_le]

/-- The group's term in arithmetic (40_varint.md R47). -/
theorem groupTerm_eq_mod (p : Params) (k : Nat) (b : Byte) :
    groupTerm p k b = (b.toNat % 128 * 2 ^ (7 * k)) % 2 ^ p.width := by
  rw [groupTerm, truncW, group_toNat]

/-- The condition of 40_varint.md R51 in arithmetic. -/
theorem guardTrips_iff_toNat {p : Params} {k : Nat} {b : Byte} :
    guardTrips p k b = true ↔ p.policy = .guard ∧ k = maxb p - 1 ∧
      (128 ≤ b.toNat ∨ b.toNat % 128 / 2 ^ (p.width - 7 * (maxb p - 1)) ≠ 0) := by
  rw [guardTrips_iff, continues_iff, group_toNat]

/-- Settles O43: an edge that transfers an answer fails, trips, ends or goes on, and the fields of the byte are
those of R41 in arithmetic. -/
theorem varintEdgeRows : Obligations.VarintEdgeRows := by
  intro s p hf hr g trips merged
  have htrips : guardTrips s.params s.viK p.srcData = true ↔ trips := guardTrips_iff_toNat
  have hmerged : s.viAcc ||| groupTerm s.params s.viK p.srcData = merged :=
    congrArg (s.viAcc ||| ·) (groupTerm_eq_mod s.params s.viK p.srcData)
  refine ⟨clockEdge_viWait_silent hr hf, fun hv => ⟨fun hk => ?eos, fun hk => ?ioErr, fun hk => ?byte⟩⟩
  case eos => exact clockEdge_viWait_failed hr hf hv (fetched_failed_of_kind (.inl ⟨hk, rfl⟩))
  case ioErr => exact clockEdge_viWait_failed hr hf hv (fetched_failed_of_kind (.inr ⟨hk, rfl⟩))
  case byte =>
    have hb := fetched_byte_of_kind hk p.srcData
    refine ⟨fun ht => clockEdge_viWait_trips hr hf hv hb (htrips.mpr ht), fun ht hc => ?last,
      fun ht hc => ?more⟩
    all_goals have ht' := Bool.eq_false_iff.mpr (mt htrips.mp ht)
    case last =>
      exact hmerged ▸ clockEdge_viWait_last hr hf hv hb ht' ((continues_eq_false_iff _).mpr hc)
    case more => exact hmerged ▸ clockEdge_viWait_continues hr hf hv hb ht' ((continues_iff _).mpr hc)

/-! ### The edge in `PB_WAIT` (R65): on a byte, the refill and the bit read -/

section RefillEdge

variable {p : Pins} {s : State} (hr : p.rst = false) (hf : s.fsm = .pbWait)

include hr hf

theorem clockEdge_pbWait : clockEdge p s = edgePbWait p s := by simp [clockEdge, hr, hf]

theorem clockEdge_pbWait_silent (hv : p.srcValid = false) : clockEdge p s = s := by
  simp [clockEdge_pbWait hr hf, edgePbWait, hv]

theorem clockEdge_pbWait_failed {e : Status} (hv : p.srcValid = true)
    (he : (fetched ⟨p.srcKind, p.srcData⟩ = .eos ∧ e = .streamExhausted) ∨
      (fetched ⟨p.srcKind, p.srcData⟩ = .ioErr ∧ e = .ioError)) :
    clockEdge p s = s.raise e := by
  rcases he with ⟨ha, rfl⟩ | ⟨ha, rfl⟩ <;>
    simp [clockEdge_pbWait hr hf, edgePbWait, hv, ha, State.raise, State.respond]

theorem clockEdge_pbWait_byte {d : Byte} (hv : p.srcValid = true)
    (hd : fetched ⟨p.srcKind, p.srcData⟩ = .byte d) :
    clockEdge p s = pboolRead (pboolLoad d { s with pos := s.pos + 1 }) := by
  simp only [clockEdge_pbWait hr hf, edgePbWait, hv, hd]
  rfl

end RefillEdge

/-- Settles O44: the rows, one equation each. -/
theorem refillEdgeRows : Obligations.RefillEdgeRows :=
  fun _ _ hf hr => ⟨clockEdge_pbWait_silent hr hf, fun hv =>
    ⟨fun hk => clockEdge_pbWait_failed hr hf hv (fetched_failed_of_kind (.inl ⟨hk, rfl⟩)),
      fun hk => clockEdge_pbWait_failed hr hf hv (fetched_failed_of_kind (.inr ⟨hk, rfl⟩)),
      fun hk => clockEdge_pbWait_byte hr hf hv (fetched_byte_of_kind hk _)⟩⟩

/-! ### The edge in `RESP` (R66), and which handshakes an FSM state offers -/

theorem clockEdge_resp {p : Pins} {s : State} (hr : p.rst = false) (hf : s.fsm = .resp) :
    clockEdge p s = if p.rspReady then s.takeResponse else s := by
  simp [clockEdge, edgeResp, hr, hf]

theorem acceptedAt_idle {p : Pins} {s : State} (hr : p.rst = false) (hf : s.fsm = .idle) :
    acceptedAt p s = if p.cmdValid then [p.cmdOp] else [] := by
  simp [acceptedAt, outputs, hr, hf]

theorem acceptedAt_busy (p : Pins) {s : State} (hf : s.fsm ≠ .idle) : acceptedAt p s = [] := by
  simp [acceptedAt, outputs, hf]

theorem transferredAt_pbWait {p : Pins} {s : State} (hr : p.rst = false) (hf : s.fsm = .pbWait) :
    transferredAt p s = if p.srcValid then [.answer ⟨p.srcKind, p.srcData⟩] else [] := by
  simp [transferredAt, outputs, hr, hf]

/-- Only a command that waits for a byte asks the source (10_state.md R17). -/
theorem transferredAt_of_not_waiting (p : Pins) {s : State} (hf : s.fsm = .idle ∨ s.fsm = .resp) :
    transferredAt p s = [] := by
  rcases hf with hf | hf <;> simp [transferredAt, outputs, hf]

/-- Settles O17: the block is not in `IDLE`, and `clockEdge_resp` for both values of `rsp_ready`. -/
theorem responseTakenOrHeld : Obligations.ResponseTakenOrHeld := by
  intro s p hf hr
  refine ⟨acceptedAt_busy p (by simp [hf]), fun hv => ?_, fun hv => ?_⟩
  · rw [clockEdge_resp hr hf, if_pos hv]; rfl
  · rw [clockEdge_resp hr hf, hv]; rfl

/-! ### The steps that run no command -/

/-- Settles O18: the response is delivered (`step_deliver`) or the step does nothing (`step_hold`). -/
theorem stepDeliversResponse : Obligations.StepDeliversResponse :=
  fun _ hf hr => ⟨step_deliver hf hr, fun hv => step_hold hr (.inr ⟨hf, hv⟩)⟩

/-- Settles O51: the idle half of `step_hold`. -/
theorem idleStepHolds : Obligations.IdleStepHolds :=
  fun _ hf hr hc => step_hold hr (.inl ⟨hf, hc⟩)

end Sys2Proof.Machine
end

section
/-! The cycle level refines the transaction level (42_control_fsm.md R67). A state at the cycle level is
simulated by the transaction-level state that still has before it the commands and the answers of the coming
edges; every edge without reset keeps the simulation. -/

namespace Sys2Proof.Machine

/-- `s` beside a caller with the words `cs` left, a source with the events `es` left and an eager outside, with
`acc` and `k` in the working registers. -/
def State.facing (s : State) (cs : List CmdWord) (es : List SrcEvent) (acc k : Nat) : State :=
  { s with commands := cs, answers := es, ticks := [], viAcc := acc, viK := k }

/-- `u` simulates `s` when the words `cs` and the events `es` are still to come. The working registers are those
of `s` while a `VARINT` runs; after it the two levels may differ in them (10_state.md R15, log entry 8). -/
def StandsFor (cs : List CmdWord) (es : List SrcEvent) (s u : State) : Prop :=
  ∃ acc k, u = s.facing cs es acc k ∧ (s.fsm = .viWait → acc = s.viAcc ∧ k = s.viK)

/-- What an edge that leaves the cycle level in `s'` is at the transaction level, where the state before it is
simulated by `u`. -/
inductive FollowsEdge (cs : List CmdWord) (es : List SrcEvent) (s' u : State) : Prop
  /-- No step. -/
  | stays (stands : StandsFor cs es s' u)
  /-- A step. -/
  | steps (u' : State) (stands : StandsFor cs es s' u') (step_eq : step u = .next u')
  /-- The beginning of a step that the coming edges complete. -/
  | begins (u' : State) (stands : StandsFor cs es s' u') (busy : s'.fsm ≠ .idle) (step_eq : step u = step u')

section Edge

variable {p : Pins} {s u : State} {cs : List CmdWord} {es : List SrcEvent}

theorem standsFor_facing (hf : s.fsm ≠ .viWait) (acc k : Nat) : StandsFor cs es s (s.facing cs es acc k) :=
  ⟨acc, k, rfl, fun hf' => absurd hf' hf⟩

theorem standsFor_facing_self (s : State) : StandsFor cs es s (s.facing cs es s.viAcc s.viK) :=
  ⟨_, _, rfl, fun _ => ⟨rfl, rfl⟩⟩

theorem StandsFor.eq_facing_of_running (h : StandsFor cs es s u) (hf : s.fsm = .viWait) :
    u = s.facing cs es s.viAcc s.viK := by
  obtain ⟨acc, k, rfl, hrun⟩ := h
  obtain ⟨rfl, rfl⟩ := hrun hf
  rfl

/-! ### What the step of `u` comes to, by the FSM state the edge leaves -/

theorem step_facing_viWait (hf : s.fsm = .viWait) (acc k : Nat) :
    step (s.facing cs es acc k) = .next (varintLoop (s.facing cs es acc k).answers (s.facing cs es acc k)) :=
  step_varintPoll (s := s.facing cs es acc k) hf rfl

theorem step_facing_pbWait (hf : s.fsm = .pbWait) (acc k : Nat) :
    step (s.facing cs es acc k) = .next (pboolRefill (s.facing cs es acc k)) :=
  step_pboolPoll (s := s.facing cs es acc k) hf rfl

/-- A response is pending: the step is over. -/
theorem followsEdge_of_resp {acc k : Nat} (hf : s.fsm = .resp) (hstep : step u = .next (s.facing cs es acc k)) :
    FollowsEdge cs es s u :=
  .steps _ (standsFor_facing (by simp [hf]) acc k) hstep

/-- A `VARINT` waits: the step goes on with the coming answers. -/
theorem followsEdge_of_viWait (hf : s.fsm = .viWait)
    (hstep : step u = .next (varintLoop es (s.facing cs es s.viAcc s.viK))) : FollowsEdge cs es s u :=
  .begins _ (standsFor_facing_self s) (by simp [hf]) (hstep.trans (step_facing_viWait hf _ _).symm)

/-- A `PBOOL` waits: the step goes on with the coming answer. -/
theorem followsEdge_of_pbWait {acc k : Nat} (hf : s.fsm = .pbWait)
    (hstep : step u = .next (pboolRefill (s.facing cs es acc k))) : FollowsEdge cs es s u :=
  .begins _ (standsFor_facing (by simp [hf]) acc k) (by simp [hf])
    (hstep.trans (step_facing_pbWait hf acc k).symm)

/-! ### The edges at which something is transferred -/

/-- The edge that accepts a word is the step that runs its command (R63), or begins that step when the command
waits for a byte. -/
theorem followsEdge_accept (hr : p.rst = false) (hf : s.fsm = .idle) (hv : p.cmdValid = true)
    (h : StandsFor (p.cmdOp :: cs) es s u) : FollowsEdge cs es (clockEdge p s) u := by
  obtain ⟨acc, k, rfl, -⟩ := h
  have hstep : step (s.facing (p.cmdOp :: cs) es acc k) = runCommand p.cmdOp (s.facing cs es acc k) :=
    step_accept_eager hf rfl rfl
  rcases runCommand_cases p.cmdOp (s := s.facing cs es acc k) hf with ⟨hop, hrun⟩ | ⟨hop, hrem, hrun⟩ |
    ⟨hop, hrem, hrun⟩ | ⟨hop, hrun⟩ | ⟨hop, hrun⟩ <;> rw [hrun] at hstep
  · rw [clockEdge_idle_varint hr hf hv hop]
    exact followsEdge_of_viWait rfl hstep
  · rw [clockEdge_idle_read hr hf hv hop hrem]
    exact followsEdge_of_resp rfl hstep
  · rw [clockEdge_idle_refill hr hf hv hop hrem]
    exact followsEdge_of_pbWait rfl hstep
  · rw [clockEdge_idle_pbfin hr hf hv hop]
    exact followsEdge_of_resp rfl hstep
  · rw [clockEdge_idle_reserved hr hf hv hop]
    exact followsEdge_of_resp rfl hstep

/-- The edge that answers a `VARINT` is a turn of the loop (R64): the last turn ends the step, any other begins
the step that the coming edges complete. -/
theorem followsEdge_varint (hr : p.rst = false) (hf : s.fsm = .viWait) (hv : p.srcValid = true)
    (h : StandsFor cs (.answer ⟨p.srcKind, p.srcData⟩ :: es) s u) :
    FollowsEdge cs es (clockEdge p s) u := by
  obtain rfl := h.eq_facing_of_running hf
  have hstep := step_facing_viWait (cs := cs) (es := .answer ⟨p.srcKind, p.srcData⟩ :: es) hf s.viAcc s.viK
  rcases varintLoop_cases (s.facing cs (.answer ⟨p.srcKind, p.srcData⟩ :: es) s.viAcc s.viK) with
    ⟨hw, -⟩ | ⟨a, rest, e, ha, he, hturn⟩ | ⟨b, rest, ha, ht, hturn⟩ | ⟨b, rest, ha, ht, hc, hturn⟩ |
    ⟨b, rest, ha, ht, hc, hturn⟩
  · cases hw
  all_goals
    obtain ⟨hhead, rfl⟩ := List.cons.inj ha
    replace hhead := SrcEvent.answer.inj hhead
    rw [hturn] at hstep
  · rw [clockEdge_viWait_failed hr hf hv (hhead ▸ he)]
    exact followsEdge_of_resp rfl hstep
  · rw [clockEdge_viWait_trips hr hf hv (hhead ▸ fetched_byte b) ht]
    exact followsEdge_of_resp rfl hstep
  · rw [clockEdge_viWait_continues hr hf hv (hhead ▸ fetched_byte b) ht hc]
    exact followsEdge_of_viWait hf hstep
  · rw [clockEdge_viWait_last hr hf hv (hhead ▸ fetched_byte b) ht hc]
    exact followsEdge_of_resp rfl hstep

/-- The edge that answers a `PBOOL` is the step that polls the source (R65). -/
theorem followsEdge_refill (hr : p.rst = false) (hf : s.fsm = .pbWait) (hv : p.srcValid = true)
    (h : StandsFor cs (.answer ⟨p.srcKind, p.srcData⟩ :: es) s u) :
    FollowsEdge cs es (clockEdge p s) u := by
  obtain ⟨acc, k, rfl, -⟩ := h
  have hstep := step_facing_pbWait (cs := cs) (es := .answer ⟨p.srcKind, p.srcData⟩ :: es) hf acc k
  rcases pboolRefill_cases (s.facing cs (.answer ⟨p.srcKind, p.srcData⟩ :: es) acc k) with
    ⟨hw, -⟩ | ⟨a, rest, e, ha, he, hrefill⟩ | ⟨d, rest, ha, hrefill⟩
  · cases hw
  all_goals
    obtain ⟨hhead, rfl⟩ := List.cons.inj ha
    replace hhead := SrcEvent.answer.inj hhead
    rw [hrefill] at hstep
  · rw [clockEdge_pbWait_failed hr hf hv (hhead ▸ he)]
    exact followsEdge_of_resp rfl hstep
  · rw [clockEdge_pbWait_byte hr hf hv (hhead ▸ fetched_byte d)]
    exact followsEdge_of_resp rfl hstep

/-- The edge that takes the response is the step that delivers it (R66). -/
theorem followsEdge_deliver (hf : s.fsm = .resp) (h : StandsFor cs es s u) :
    FollowsEdge cs es s.takeResponse u := by
  obtain ⟨acc, k, rfl, -⟩ := h
  exact .steps _ (standsFor_facing (by simp) acc k) (step_deliver_eager hf rfl)

/-! ### Every edge -/

/-- Every edge without reset keeps the simulation, with the word it accepts and the answer it transfers used
up: by the FSM states, and in each by whether the outside does its part of the handshake. -/
theorem followsEdge (hr : p.rst = false)
    (h : StandsFor (acceptedAt p s ++ cs) (transferredAt p s ++ es) s u) :
    FollowsEdge cs es (clockEdge p s) u := by
  cases hf : s.fsm with
  | idle =>
    rw [acceptedAt_idle hr hf, transferredAt_of_not_waiting p (.inl hf)] at h
    cases hv : p.cmdValid with
    | false =>
      rw [clockEdge_idle_silent hr hf hv]
      exact .stays (by simpa [hv] using h)
    | true => exact followsEdge_accept hr hf hv (by simpa [hv] using h)
  | viWait =>
    rw [acceptedAt_busy p (by simp [hf]), transferredAt_viWait hr hf] at h
    cases hv : p.srcValid with
    | false =>
      rw [clockEdge_viWait_silent hr hf hv]
      exact .stays (by simpa [hv] using h)
    | true => exact followsEdge_varint hr hf hv (by simpa [hv] using h)
  | pbWait =>
    rw [acceptedAt_busy p (by simp [hf]), transferredAt_pbWait hr hf] at h
    cases hv : p.srcValid with
    | false =>
      rw [clockEdge_pbWait_silent hr hf hv]
      exact .stays (by simpa [hv] using h)
    | true => exact followsEdge_refill hr hf hv (by simpa [hv] using h)
  | resp =>
    rw [acceptedAt_busy p (by simp [hf]), transferredAt_of_not_waiting p (.inr hf)] at h
    rw [clockEdge_resp hr hf]
    cases p.rspReady with
    | false => exact .stays h
    | true => exact followsEdge_deliver hf h

end Edge

/-! ### The run -/

theorem StandsFor.fsm_eq {cs : List CmdWord} {es : List SrcEvent} {s u : State} (h : StandsFor cs es s u) :
    u.fsm = s.fsm := by
  obtain ⟨acc, k, rfl, -⟩ := h
  rfl

/-- A run that ends in `IDLE` from a busy state begins with a step, so it is also a run from any state that
steps alike. -/
theorem run_of_step_eq {u u' t : State} {k : Nat} (hstep : step u = step u') (hbusy : u'.fsm ≠ .idle)
    (ht : t.fsm = .idle) (hrun : Host.Core.run Sys2Proof.core k u' = .next t) :
    Host.Core.run Sys2Proof.core k u = .next t := by
  cases k with
  | zero =>
    cases hrun
    exact absurd ht hbusy
  | succ k =>
    obtain ⟨v, hv, -⟩ := stepAlwaysGoesOn u'
    rw [run_succ_of_step (hstep.trans hv), ← run_succ_of_step hv]
    exact hrun

/-- Edges without reset that end in `IDLE` come to a run of the transaction level, from whatever state simulates
the one they begin in. -/
theorem run_of_standsFor (ps : List Pins) : ∀ s u : State, (∀ p ∈ ps, p.rst = false) →
    (cycleRun ps s).fsm = .idle → StandsFor (accepted ps s) (transferred ps s) s u →
    ∃ k t, Host.Core.run Sys2Proof.core k u = .next t ∧ StandsFor [] [] (cycleRun ps s) t := by
  induction ps with
  | nil => exact fun s u _ _ h => ⟨0, u, rfl, h⟩
  | cons p ps ih =>
    intro s u hps hend h
    obtain ⟨hr, hps⟩ := List.forall_mem_cons.mp hps
    cases followsEdge hr h with
    | stays hu => exact ih _ u hps hend hu
    | steps u' hu' hstep =>
      obtain ⟨k, t, hrun, ht⟩ := ih _ u' hps hend hu'
      exact ⟨k + 1, t, (run_succ_of_step hstep k).trans hrun, ht⟩
    | begins u' hu' hbusy hstep =>
      obtain ⟨k, t, hrun, ht⟩ := ih _ u' hps hend hu'
      exact ⟨k, t, run_of_step_eq hstep (hu'.fsm_eq ▸ hbusy) (ht.fsm_eq.trans hend) hrun, ht⟩

/-- Settles O49: `s` beside its words and answers simulates `s`, so it runs to a state that simulates the one the
edges end in (`run_of_standsFor`), with nothing left to come. -/
theorem cycleLevelRefinesTransactions : Obligations.CycleLevelRefinesTransactions := by
  intro ps s _ hps hend
  obtain ⟨k, t, hrun, acc, j, rfl, -⟩ := run_of_standsFor ps s _ hps hend (standsFor_facing_self s)
  exact ⟨k, _, hrun, hend, rfl, rfl, rfl, rfl, rfl, rfl⟩

end Sys2Proof.Machine
end

section
/-! The errors of the byte source (60_exceptions.md R69, R70): a failed fetch ends the command that made it, at
every fetch of a `VARINT` and at the refill of a `PBOOL`. The two statements differ in the answer's kind only. -/

namespace Sys2Proof.Machine

/-- Settles O35: the failed fetches (`execVarint_failed`, `execPbool_failed`) and the commands that make none. -/
theorem endOfStreamStatus : Obligations.EndOfStreamStatus := by
  intro s _ hf
  have heos (x : Byte) := fetched_failed_of_kind (a := ⟨0b01#2, x⟩) (.inl ⟨rfl, rfl⟩)
  refine ⟨fun bs x rest hu hg ha => ?varint, fun x rest ha hr => ?refill, fun hr => ?unread, ?pbfin, ?reserved⟩
  case varint => exact execVarint_failed hf hu hg ha (heos x)
  case refill => exact execPbool_failed hf hr ha (heos x)
  case unread => exact ⟨_, execPbool_unread hf hr, rfl, rfl⟩
  case pbfin => exact ⟨_, execPbfin_idle hf, rfl, rfl⟩
  case reserved => rw [reservedCommand_idle hf]; exact ⟨rfl, rfl⟩

/-- Settles O36: both kinds fail the fetch with `IO_ERROR` (`fetched_failed_of_kind`). -/
theorem ioErrorStatus : Obligations.IoErrorStatus := by
  intro s kind x rest _ hf hk
  have herr := fetched_failed_of_kind (a := ⟨kind, x⟩) (.inr ⟨hk, rfl⟩)
  exact ⟨fun bs hu hg ha => execVarint_failed hf hu hg ha herr, fun ha hr => execPbool_failed hf hr ha herr⟩

end Sys2Proof.Machine
end

section
/-! Reset at both levels (70_reset_and_hazards.md R81, R83), and a `VARINT` between two booleans of one byte
(R86). -/

namespace Sys2Proof.Machine

/-! ### Reset (R81, R83) -/

/-- While `rst` is high the block offers no handshake (10_state.md R17). -/
theorem outputs_reset (s : State) :
    (outputs true s).cmdReady = false ∧ (outputs true s).srcReq = false ∧
      (outputs true s).rspValid = false := by simp [outputs]

theorem acceptedAt_reset {p : Pins} (hr : p.rst = true) (s : State) : acceptedAt p s = [] := by
  obtain ⟨hready, -, -⟩ := outputs_reset s
  simp [acceptedAt, hr, hready]

theorem transferredAt_reset {p : Pins} (hr : p.rst = true) (s : State) : transferredAt p s = [] := by
  obtain ⟨-, hreq, -⟩ := outputs_reset s
  simp [transferredAt, hr, hreq]

/-- Settles O40: the edge is `resetBlock`, and no handshake is offered, so none takes place. -/
theorem resetEdgeLoadsValues : Obligations.ResetEdgeLoadsValues := by
  intro s p hr
  refine ⟨clockEdge_reset hr s, acceptedAt_reset hr s, transferredAt_reset hr s, ?_⟩
  rw [hr]
  exact outputs_reset s

/-- Settles O41: `step_reset`, the reset after the tick is used up. -/
theorem resetStepLoadsValues : Obligations.ResetStepLoadsValues := fun _ hr => step_reset hr

/-! ### `PBOOL; VARINT; PBOOL` (R86) -/

/-- A one-byte VarInt is decoded to its group under both policies: a group has 7 bits and `W >= 7`. -/
theorem execVarint_single {s : State} {e : Byte} {rest : List SrcEvent} (hp : s.params.wf)
    (hf : s.fsm = .idle) (he : continues e = false) (ha : s.answers = .answer ⟨0b00#2, e⟩ :: rest) :
    execVarint s = .next { s with
      answers := rest, pos := s.pos + 1, viAcc := (group e).toNat, viK := 0, fsm := .resp,
      rspStatus := .ok, rspValue := (group e).toNat, rspBool := false } := by
  have hfits : (group e).toNat < 2 ^ s.params.width :=
    (group_lt e).trans_le (Nat.pow_le_pow_right (by omega) hp)
  have hvalue : 0 ||| groupTerm s.params 0 e = (group e).toNat := by
    rw [or_groupTerm (Nat.two_pow_pos _) (Nat.two_pow_pos _)]
    simpa using truncW_of_lt hfits
  have htrips : guardTrips s.params 0 e = false := guardTrips_of_fits hp he (by simpa using hfits)
  have hloop := varintLoop_last (s := varintStart s) ha htrips he
  rw [execVarint_idle hf]
  simpa [varintStart, hvalue] using hloop

/-- Settles O34: the first `PBOOL` takes `d` and leaves 7 bits unread, the `VARINT` takes `e` and leaves them
alone, so the second `PBOOL` reads bit 1 of `d`. -/
theorem varintInsideGroup : Obligations.VarintInsideGroup := by
  intro s d e cs rest hp hf ht hr he hc ha
  have hunread : (7 : Fin 9) ≠ 0 := by decide
  have hbit : firstBit (d >>> 1) = d.getLsbD 1 := dropBit_getLsbD d 0
  have hrun := calc Host.Core.run Sys2Proof.core 6 s
    _ = Host.Core.run Sys2Proof.core 4 _ :=
      run_two_steps 4 hf ht hc (execPbool_byte (s := { s with commands := _ }) hf hr ha) rfl
    _ = Host.Core.run Sys2Proof.core 2 _ := run_two_steps 2 rfl ht rfl (execVarint_single hp rfl he rfl) rfl
    _ = Host.Core.run Sys2Proof.core 0 _ := run_two_steps 0 rfl ht rfl (execPbool_unread rfl hunread) rfl
  refine ⟨_, hrun, ?received, ?buffer, rfl, rfl, rfl, rfl⟩
  case received => simp [State.pending, hbit]
  case buffer => exact (BitVec.shiftRight_add d 1 1).symm

end Sys2Proof.Machine
end
